-- ==== Sys2Proof/Word.lean ====
section
/-! DEFINITION. The word types of FRAMER: a byte, the operation word, the 9-bit length registers
(spec/00_scope.md R4, R5; spec/30_encoding.md R46). -/

namespace Sys2Proof

/-- Every field of a frame and every buffer cell (R4, BYTE_W). -/
abbrev Byte := BitVec 8

/-- The packed operation word `{op_code[2:0], arg8[7:0], arg16[LENW-1:0]}` of a block whose LENW is
`lenw`: 27 bits (OPW) at LENW = 16 (R4, R46; log 14). -/
abbrev OpWord (lenw : Nat) := BitVec (3 + 8 + lenw)

/-- The width of TXLEN and RXLEN (R12, R13) and of `rsp_len` (R49). -/
abbrev Len := BitVec 9

end Sys2Proof
end

