-- ==== Sys2Proof/Config.lean ====
section
/-! DEFINITION. The parameters of the block (spec/00_scope.md R4), the response pins
(spec/44_port_protocol.md R100) and the one free value, what a pin the spec leaves unspecified
carries (spec/30_encoding.md R49, R105). -/

namespace Sys2Proof.Config

/-- Start-of-frame marker (R4, R41). -/
def stx : Byte := 0x02
/-- End-of-frame marker (R4, R41). -/
def etx : Byte := 0x03
/-- FLAG value "request" (R4, R41). -/
def enq : Byte := 0x05
/-- FLAG value acknowledge (R4, R41). -/
def ack : Byte := 0x06
/-- FLAG value negative acknowledge (R4, R41). -/
def nak : Byte := 0x15

/-- Largest payload length (R4). -/
def maxPayload : Nat := 250
/-- Frame length minus payload length (R4). -/
def overhead : Nat := 6
/-- Modulus of the SEQ byte (R4). -/
def seqMod : Nat := 255
/-- Cells in each of TXBUF and RXBUF (R4, D9). -/
def bufSize : Nat := 256

/-- LENW of the packed form and of the ports (R4, default; R46, R100). Every definition that depends on
LENW takes it as an argument; this is the value the opcode table is written for (log 14). -/
def lenw : Nat := 16
/-- The least LENW there may be (R4, D8). -/
def minLenw : Nat := 9

/-- The response side of the ports (R100): what the pins carry in one cycle. -/
structure RspPins where
  rspValid : Bool
  rspStatus : BitVec 3
  rspLen : Len
  rspData : Byte
  rspOk : Bool
  decFlag : Byte
  decSeq : Byte
  decLen : Byte
  decCs : Byte
  decBits : BitVec 7
  deriving DecidableEq, Repr, Inhabited

/-- FREE VALUE (log 13). What the response pins carry where the spec lists no value for them (R49,
R105; U8): the first argument is State's counter `draws`, the second the place of the cycle within
the step. Nothing is known of it. -/
opaque unspecifiedPins : Nat → Nat → RspPins

end Sys2Proof.Config
end

