-- ==== Sys2Proof/Syntax.lean ====
section
/-! DEFINITION. The instructions: one constructor per row of spec/opcode_table.json. A field the
table marks "ignored" is no operand (spec/30_encoding.md R53), so no constructor carries one. -/

namespace Sys2Proof

/-- The rows of the opcode table: eight operation codes (R47, R52) and five wire-frame rows (R40,
R42, R45). A length or an index is a natural number: how many bits it has is the parameter LENW, a
matter of the word that carries it (R4; log 14). -/
inductive Instr where
  /-- op_code 0 (R52). -/
  | illegal
  /-- Build a frame from a flag byte and `n` payload bytes (R60). -/
  | encode (flag : Byte) (n : Nat)
  /-- Read cell `i` of TXBUF (R90). -/
  | txrd (i : Nat)
  /-- Empty the receive buffer (R91). -/
  | rxclr
  /-- Append byte `b` to RXBUF (R92, R93). -/
  | rxpush (b : Byte)
  /-- Read cell `i` of RXBUF (R94). -/
  | rxrd (i : Nat)
  /-- Check the XOR checksum of RXBUF (R71). -/
  | verify
  /-- Report the fields and check bits of RXBUF (R80). -/
  | decode
  /-- A wire header with FLAG = ENQ (R40, R42). -/
  | frameEnq (seq len : Byte)
  /-- A wire header with FLAG = ACK (R40, R42). -/
  | frameAck (seq len : Byte)
  /-- A wire header with FLAG = NAK (R40, R42). -/
  | frameNak (seq len : Byte)
  /-- A wire header with any other FLAG (R40, R51; log 19). -/
  | frameAny (flag seq len : Byte)
  /-- A wire trailer (R40, R45). -/
  | frameTrailer (cs : Byte)
  deriving DecidableEq, Repr

/-- The three formats of the opcode table. In a frame row the byte at the lowest offset is in the
most significant bits (spec/30_encoding.md, opening). -/
inductive RawWord where
  /-- The operation word of a block whose LENW is `lenw`, presented at the operation port (R46);
  OPWORD27 at LENW = 16. -/
  | opword (lenw : Nat) (w : OpWord lenw)
  /-- FRAME_HEADER32, the first four bytes of a frame (R40). -/
  | header (w : BitVec 32)
  /-- FRAME_TRAILER16, the last two bytes of a frame (R40). -/
  | trailer (w : BitVec 16)
  deriving DecidableEq, Repr

/-- Why a word is no row of the table. -/
inductive DecodeError where
  /-- An operation word of a LENW below 9: there is no such block (R4, D8). -/
  | narrowLenw
  /-- A header whose first byte is not STX (R40). -/
  | headerWithoutStx
  /-- A trailer whose last byte is not ETX (R40). -/
  | trailerWithoutEtx
  deriving DecidableEq, Repr

/-- The format column of the opcode table. -/
inductive Format where
  | opword27
  | frameHeader32
  | frameTrailer16
  deriving DecidableEq, Repr

/-- A row of the opcode table: a word of the format belongs to it when the bits under `mask` are
those of `value`. -/
structure Row where
  mnemonic : String
  format : Format
  value : Nat
  mask : Nat
  deriving DecidableEq, Repr

end Sys2Proof
end

