-- ==== Sys2Proof/WellFormed.lean ====
section
/-! DEFINITION. Well-formed instructions, for a LENW: a number operand fits its LENW bits, and a header
with a named flag is written as its own row (log 19). -/

namespace Sys2Proof

/-- FLAG is one of the three values the data model names (spec/30_encoding.md R42). -/
def namedFlag (flag : Byte) : Bool :=
  flag == Config.enq || flag == Config.ack || flag == Config.nak

/-- A length or an index fits the operand of LENW = `lenw` bits (R4, D8). -/
def fitsLenw (lenw n : Nat) : Bool := decide (n < 2 ^ lenw)

/-- No flag, length or index that can be presented is illegal as an operand (R48, R51); FRAME.ANY stands
for the flags the other three header rows do not name (log 19). -/
def Instr.wfAt (lenw : Nat) : Instr → Bool
  | .illegal => true
  | .encode _ n => fitsLenw lenw n
  | .txrd i => fitsLenw lenw i
  | .rxclr => true
  | .rxpush _ => true
  | .rxrd i => fitsLenw lenw i
  | .verify => true
  | .decode => true
  | .frameEnq _ _ => true
  | .frameAck _ _ => true
  | .frameNak _ _ => true
  | .frameAny flag _ _ => !namedFlag flag
  | .frameTrailer _ => true

/-- Well formed in the packed form of the opcode table. -/
def Instr.wf (i : Instr) : Bool := i.wfAt Config.lenw

end Sys2Proof
end

