-- ==== Sys2Proof/Decode.lean ====
section
/-! DEFINITION. The decoder, the encoder and the opcode table (spec/30_encoding.md R40, R45 to R47,
R52, R53; spec/opcode_table.json). -/

namespace Sys2Proof

/-! ## Fields -/

/-- The three bits above `arg8`: 26:24 at LENW = 16 (R46). -/
def opCode {lenw : Nat} (w : OpWord lenw) : BitVec 3 := w.extractLsb' (lenw + 8) 3
/-- The eight bits above `arg16`: 23:16 at LENW = 16 (R46). -/
def opArg8 {lenw : Nat} (w : OpWord lenw) : Byte := w.extractLsb' lenw 8
/-- The low LENW bits: 15:0 at LENW = 16 (R46). -/
def opArg16 {lenw : Nat} (w : OpWord lenw) : BitVec lenw := w.extractLsb' 0 lenw

/-- `{op_code, arg8, arg16}` (R46). -/
def packOp {lenw : Nat} (code : BitVec 3) (arg8 : Byte) (arg16 : BitVec lenw) : OpWord lenw :=
  code ++ arg8 ++ arg16

/-- The byte at frame offset `j` (0 to 3) of a header word. -/
def headerByte (w : BitVec 32) (j : Nat) : Byte := w.extractLsb' (8 * (3 - j)) 8

/-- Four frame bytes, the one at offset 0 in the most significant bits. -/
def packHeader (b0 b1 b2 b3 : Byte) : BitVec 32 := b0 ++ b1 ++ b2 ++ b3

/-- The CHECKSUM byte of a trailer word, at offset N-2 (R45). -/
def trailerChecksum (w : BitVec 16) : Byte := w.extractLsb' 8 8
/-- The ETX byte of a trailer word, at offset N-1 (R45). -/
def trailerEtx (w : BitVec 16) : Byte := w.extractLsb' 0 8

/-- `{checksum, etx}`. -/
def packTrailer (cs last : Byte) : BitVec 16 := cs ++ last

/-! ## Decoder -/

/-- The operation of an operation word. Total: the eight codes are all in the table (R47, R52). -/
def decodeOp {lenw : Nat} (w : OpWord lenw) : Instr :=
  match (opCode w).toNat with
  | 0 => .illegal
  | 1 => .encode (opArg8 w) (opArg16 w).toNat
  | 2 => .txrd (opArg16 w).toNat
  | 3 => .rxclr
  | 4 => .rxpush (opArg8 w)
  | 5 => .rxrd (opArg16 w).toNat
  | 6 => .verify
  | _ => .decode

/-- The header row of a header word (R40, R42). -/
def decodeHeader (w : BitVec 32) : Except DecodeError Instr :=
  if headerByte w 0 ≠ Config.stx then .error .headerWithoutStx
  else if headerByte w 1 = Config.enq then .ok (.frameEnq (headerByte w 2) (headerByte w 3))
  else if headerByte w 1 = Config.ack then .ok (.frameAck (headerByte w 2) (headerByte w 3))
  else if headerByte w 1 = Config.nak then .ok (.frameNak (headerByte w 2) (headerByte w 3))
  else .ok (.frameAny (headerByte w 1) (headerByte w 2) (headerByte w 3))

/-- The trailer row of a trailer word (R40, R45). -/
def decodeTrailer (w : BitVec 16) : Except DecodeError Instr :=
  if trailerEtx w ≠ Config.etx then .error .trailerWithoutEtx
  else .ok (.frameTrailer (trailerChecksum w))

/-- The decoder, total on every word of every format. -/
def decode : RawWord → Except DecodeError Instr
  | .opword lenw w => if lenw < Config.minLenw then .error .narrowLenw else .ok (decodeOp w)
  | .header w => decodeHeader w
  | .trailer w => decodeTrailer w

/-! ## Encoder -/

/-- `{op_code, arg8, number}` as a word of LENW = `lenw`. -/
def opwordOf (lenw : Nat) (code : BitVec 3) (arg8 : Byte) (n : Nat) : RawWord :=
  .opword lenw (packOp code arg8 (BitVec.ofNat lenw n))

/-- The word of an instruction for LENW = `lenw`, ignored fields zero (R53; log 22). -/
def encodeAt (lenw : Nat) : Instr → RawWord
  | .illegal => opwordOf lenw 0 0 0
  | .encode flag n => opwordOf lenw 1 flag n
  | .txrd i => opwordOf lenw 2 0 i
  | .rxclr => opwordOf lenw 3 0 0
  | .rxpush b => opwordOf lenw 4 b 0
  | .rxrd i => opwordOf lenw 5 0 i
  | .verify => opwordOf lenw 6 0 0
  | .decode => opwordOf lenw 7 0 0
  | .frameEnq seq len => .header (packHeader Config.stx Config.enq seq len)
  | .frameAck seq len => .header (packHeader Config.stx Config.ack seq len)
  | .frameNak seq len => .header (packHeader Config.stx Config.nak seq len)
  | .frameAny flag seq len => .header (packHeader Config.stx flag seq len)
  | .frameTrailer cs => .trailer (packTrailer cs Config.etx)

/-- The word of an instruction in the packed form of the opcode table. -/
def encode (i : Instr) : RawWord := encodeAt Config.lenw i

/-! ## The opcode table -/

/-- The format of a word. -/
def RawWord.format : RawWord → Format
  | .opword _ _ => .opword27
  | .header _ => .frameHeader32
  | .trailer _ => .frameTrailer16

/-- The LENW of a word; of a wire word, which has none, that of the opcode table. -/
def RawWord.lenw : RawWord → Nat
  | .opword lenw _ => lenw
  | .header _ => Config.lenw
  | .trailer _ => Config.lenw

/-- The bits of a word as the opcode table numbers them. The number operand of an operation word, LENW
bits in which no row fixes one, is left out. -/
def RawWord.bits : RawWord → Nat
  | .opword lenw w => w.toNat / 2 ^ lenw * 2 ^ Config.lenw
  | .header w => w.toNat
  | .trailer w => w.toNat

/-- The row of spec/opcode_table.json an instruction stands for: mnemonic, format, match, mask. -/
def Instr.row : Instr → Row
  | .illegal => ⟨"ILLEGAL", .opword27, 0x0000000, 0x7000000⟩
  | .encode _ _ => ⟨"ENCODE", .opword27, 0x1000000, 0x7000000⟩
  | .txrd _ => ⟨"TXRD", .opword27, 0x2000000, 0x7000000⟩
  | .rxclr => ⟨"RXCLR", .opword27, 0x3000000, 0x7000000⟩
  | .rxpush _ => ⟨"RXPUSH", .opword27, 0x4000000, 0x7000000⟩
  | .rxrd _ => ⟨"RXRD", .opword27, 0x5000000, 0x7000000⟩
  | .verify => ⟨"VERIFY", .opword27, 0x6000000, 0x7000000⟩
  | .decode => ⟨"DECODE", .opword27, 0x7000000, 0x7000000⟩
  | .frameEnq _ _ => ⟨"FRAME.ENQ", .frameHeader32, 0x02050000, 0xFFFF0000⟩
  | .frameAck _ _ => ⟨"FRAME.ACK", .frameHeader32, 0x02060000, 0xFFFF0000⟩
  | .frameNak _ _ => ⟨"FRAME.NAK", .frameHeader32, 0x02150000, 0xFFFF0000⟩
  | .frameAny _ _ _ => ⟨"FRAME.ANY", .frameHeader32, 0x02000000, 0xFF000000⟩
  | .frameTrailer _ => ⟨"FRAME.TRAILER", .frameTrailer16, 0x0003, 0x00FF⟩

/-- A word belongs to a row: its format is the row's and its bits under the mask are the row's. -/
def RawWord.inRow (w : RawWord) (r : Row) : Bool :=
  w.format == r.format && w.bits &&& r.mask == r.value

/-! ## Words as the host numbers them -/

/-- Which format `nbits` bits of value `w` are read in (log 4): 27 an operation word, 16 a trailer.
In 32 bits both an operation word and a header fit and no bit tells them apart; a header is read
where the first byte is STX and the flag byte is not zero, else an operation word where the value
fits 27 bits. -/
def rawOfTable (nbits w : Nat) : Option RawWord :=
  if 2 ^ nbits ≤ w then none
  else if nbits = 27 then some (.opword Config.lenw (BitVec.ofNat 27 w))
  else if nbits = 16 then some (.trailer (BitVec.ofNat 16 w))
  else if nbits = 32 then
    if w / 2 ^ 24 = 2 ∧ w / 2 ^ 16 % 256 ≠ 0 then some (.header (BitVec.ofNat 32 w))
    else if w < 2 ^ 27 then some (.opword Config.lenw (BitVec.ofNat 27 w))
    else some (.header (BitVec.ofNat 32 w))
  else none

/-- The instruction the decoder reads from a word of the opcode table's numbering. -/
def decodeTableWord (nbits w : Nat) : Option Instr :=
  match rawOfTable nbits w with
  | none => none
  | some r =>
    match decode r with
    | .ok i => some i
    | .error _ => none

end Sys2Proof
end

