-- ==== Sys2Proof/Machine/State.lean ====
section
/-! DEFINITION. The state of the block (spec/10_state.md R10 to R14, R18, R19), the inputs HOST has
put up (R22, R100), the responses (R49), the faults and the refusals, and the state after reset
(R135). -/

namespace Sys2Proof.Machine

/-- The two frame buffers (R25). -/
inductive BufName where
  | tx
  | rx
  deriving DecidableEq, Repr

/-- A buffer: the cells written since reset, indexes strictly rising and below 256 (R18, R19; log 5). -/
abbrev Buffer := List Host.Cell

/-- The five error responses (R116). Codes 6 and 7 are never produced (U11). -/
inductive ErrorKind where
  | payloadTooLarge
  | range
  | runt
  | rxOverflow
  | illegalOp
  deriving DecidableEq, Repr

/-- A response: for each operation a shape of its own with the fields R49 lists and no other (U8). -/
inductive Response where
  /-- `rsp_len`, the new TXLEN. -/
  | encode (len : Len)
  /-- `rsp_data` = TXBUF[i]. -/
  | txrd (data : Byte)
  /-- `rsp_len` = 0. -/
  | rxclr (len : Len)
  /-- `rsp_len`, the new RXLEN. -/
  | rxpush (len : Len)
  /-- `rsp_data` = RXBUF[i]. -/
  | rxrd (data : Byte)
  /-- `rsp_ok`, the verdict. -/
  | verify (ok : Bool)
  /-- `rsp_len`, `dec_flag`, `dec_seq`, `dec_len`, `dec_cs`, `dec_bits`. -/
  | decode (len : Len) (flag seq flen cs : Byte) (bits : BitVec 7)
  /-- An error response: the status and nothing else (R115). -/
  | error (e : ErrorKind)
  deriving DecidableEq, Repr

/-- An ENCODE accepted and not yet answered: it waits for payload bytes (R104; log 9). -/
structure Flight where
  flag : Byte
  n : Nat
  /-- The payload bytes taken so far, first byte first. -/
  got : List Byte
  deriving DecidableEq, Repr

/-- What HOST does at the operation port and the reset pin (R101, R107, R108; log 1). -/
inductive HostEvent where
  /-- HOST presents a word and holds it until it is accepted. -/
  | present (w : RawWord)
  /-- HOST withdraws or changes a presented word before it is accepted (R109; log 11). -/
  | breakHandshake
  /-- HOST presents a word, the block accepts it, and reset arrives before its response (R137; log 10). -/
  | abandon (w : RawWord)
  /-- HOST resets the block (R107, R135). -/
  | reset
  deriving DecidableEq, Repr

/-- The state. The first six fields are the block's whole architectural state (R10); `flight` and
`wasReset` are what R104, R137 and R138 imply; the rest are the model's own (log 1, 8, 13). -/
structure State where
  /-- SEQCTR (R11). -/
  seqctr : Byte
  /-- TXLEN (R12). -/
  txlen : Len
  /-- RXLEN (R13). -/
  rxlen : Len
  /-- RXOVF (R14). -/
  rxovf : Bool
  /-- TXBUF (R18). -/
  txbuf : Buffer
  /-- RXBUF (R19). -/
  rxbuf : Buffer
  /-- The ENCODE in flight (R104). -/
  flight : Option Flight
  /-- Reset has been applied at least once (R138). -/
  wasReset : Bool
  /-- What HOST does next, first event first. -/
  host : List HostEvent
  /-- The payload port: the bytes HOST presents and the block has not taken (R104). -/
  payload : List Byte
  /-- The responses of the last step, oldest first (R105). -/
  responses : List Response
  /-- The counter of free values (log 13). -/
  draws : Nat
  deriving DecidableEq, Repr

/-- Why a step stops the machine. Neither fault is reachable from a state that meets the invariants
of R20 (log 5, 6). -/
inductive Fault where
  /-- Raised by every meaning that reads a buffer, on a cell nothing has written since reset (U7).
  Safe: no value is made up. -/
  | unwrittenCell (b : BufName) (i : Nat)
  /-- Raised by every meaning that reads or writes a buffer, on a cell index of 256 or more (R25).
  Safe: the spec gives no such cell. -/
  | noSuchCell (b : BufName) (i : Nat)
  deriving DecidableEq, Repr

/-- Why a step gives the run no meaning. -/
inductive Refusal where
  /-- Raised by an arm of exec whose instruction has no meaning yet; no arm is left so. Safe. -/
  | notModelled (mnemonic : String)
  /-- Raised by the step when HOST breaks the request handshake (R109, U6). Safe. -/
  | handshakeBroken
  /-- Raised by the step on an operation before the first reset, presented or in flight (R138, U9;
  log 12). Safe. -/
  | beforeFirstReset
  /-- Raised by the step on a word that is no row of the opcode table: a wire word without its marker
  (log 20), an operation word of a LENW below 9 (D8; log 14). Safe. -/
  | undecodable (e : DecodeError)
  deriving DecidableEq, Repr

/-- The outcome of a meaning. -/
abbrev Result := Host.Outcome State Fault Refusal

/-- The state right after reset (R10, R135; the inputs empty and the counter 0: log 2, log 13). -/
def State.reset : State where
  seqctr := 0
  txlen := 0
  rxlen := 0
  rxovf := false
  txbuf := []
  rxbuf := []
  flight := none
  wasReset := true
  host := []
  payload := []
  responses := []
  draws := 0

end Sys2Proof.Machine
end

