-- ==== Sys2Proof/Machine/Ops.lean ====
section
/-! DEFINITION. The shared operations: cells of a buffer (spec/20_memory.md R25 to R27, R31), the XOR
fold (spec/41_verify.md R70), responding and raising (spec/60_exceptions.md R115), pushing a byte
(spec/43_buffer_access.md R92, R93), building a frame (spec/40_encode.md R62 to R66) and reset
(spec/70_reset_and_hazards.md R135, R137). -/

namespace Sys2Proof.Machine

/-! ## Buffers as data -/

/-- The byte in cell `a`; none when nothing has written it. -/
def cellAt : Buffer → Nat → Option Byte
  | [], _ => none
  | (k, v) :: m, a => if a = k then some v else cellAt m a

/-- Write cell `a`, keeping the indexes strictly rising. -/
def setCell : Buffer → Nat → Byte → Buffer
  | [], a, b => [(a, b)]
  | (k, v) :: m, a, b =>
    if a < k then (a, b) :: (k, v) :: m
    else if a = k then (k, b) :: m
    else (k, v) :: setCell m a b

/-- Write `bytes` to the cells from `a` up, in increasing index. -/
def fillCells : Buffer → Nat → List Byte → Buffer
  | m, _, [] => m
  | m, a, b :: bs => fillCells (setCell m a b) (a + 1) bs

/-- Every index is above `lo` (when there is one), they rise strictly and stay below 256. -/
def risingFrom : Option Nat → Buffer → Bool
  | _, [] => true
  | none, (k, _) :: m => decide (k < Config.bufSize) && risingFrom (some k) m
  | some lo, (k, _) :: m => decide (lo < k) && decide (k < Config.bufSize) && risingFrom (some k) m

/-- The canonical form of a buffer: indexes strictly rising and below 256. An unlisted cell holds no
value, so no entry can equal what it reads as (log 5). -/
def bufferWf (m : Buffer) : Bool := risingFrom none m

/-- The whole memory, both buffers (R25), is in canonical form. -/
def Memory.wf (s : State) : Bool := bufferWf s.txbuf && bufferWf s.rxbuf

/-! ## Cells as the operations reach them -/

/-- The buffer named. -/
def bufferOf (s : State) : BufName → Buffer
  | .tx => s.txbuf
  | .rx => s.rxbuf

/-- MemRead of one cell (R6, R31). -/
def readCell (b : BufName) (m : Buffer) (i : Nat) : Except Fault Byte :=
  if Config.bufSize ≤ i then .error (.noSuchCell b i)
  else
    match cellAt m i with
    | some v => .ok v
    | none => .error (.unwrittenCell b i)

/-- MemWrite of one cell (R6, R31). -/
def writeCell (b : BufName) (m : Buffer) (i : Nat) (v : Byte) : Except Fault Buffer :=
  if Config.bufSize ≤ i then .error (.noSuchCell b i) else .ok (setCell m i v)

/-- Go on with a value read or written, or stop with its fault. -/
def withValue {α : Type} (r : Except Fault α) (k : α → Result) : Result :=
  match r with
  | .ok v => k v
  | .error f => .fault f

/-- Run `k` on the next state of `r`; a fault or a refusal ends both. -/
def andThen (r : Result) (k : State → Result) : Result :=
  match r with
  | .next s => k s
  | .fault f => .fault f
  | .refused e => .refused e

/-! ## The XOR fold -/

/-- `c <- 0x00; for i in 0 .. N-1: c <- c ^ f i` (R70), the bytes coming from `f`. -/
def foldCells (f : Nat → Except Fault Byte) : Nat → Except Fault Byte
  | 0 => .ok 0
  | n + 1 =>
    match foldCells f n with
    | .error e => .error e
    | .ok c =>
      match f n with
      | .error e => .error e
      | .ok v => .ok (c ^^^ v)

/-- XORFOLD(B, N) (R70). -/
def xorFold (b : BufName) (m : Buffer) (n : Nat) : Except Fault Byte :=
  foldCells (readCell b m) n

/-- The fold of VERIFY: the cell at `skip` counts as zero and is not touched (R71, R72). -/
def xorFoldMasked (b : BufName) (m : Buffer) (skip n : Nat) : Except Fault Byte :=
  foldCells (fun i => if i = skip then .ok 0 else readCell b m i) n

/-! ## Responding and raising -/

/-- The operation gives one response (R49, R105). -/
def answer (r : Response) (s : State) : State := { s with responses := s.responses ++ [r] }

/-- `respond OK(fields)` (R6). -/
def respond (r : Response) (s : State) : Result := .next (answer r s)

/-- `raise <Error>()` (R115): the block's one way of taking an exception. The operation stops, no
state changes but what the raising rule has already put into `s`, the response carries the status
and nothing else; there is no vector, no saved state and nothing to return from (R125). -/
def raise (e : ErrorKind) (s : State) : Result := .next (answer (.error e) s)

/-! ## The sequence counter and the frame builder -/

/-- `(SEQCTR + 1) mod 255` (R63; log 7, log 16). -/
def seqNext (c : Byte) : Byte := BitVec.ofNat 8 ((c.toNat + 1) % Config.seqMod)

/-- The LEN byte `n & 0xFF` (R64). -/
def lenByte (n : Nat) : Byte := BitVec.ofNat 8 n &&& 0xFF

/-- The cells ENCODE writes before it computes the checksum: STX, FLAG, SEQ, LEN, DATA, the zero
placeholder and ETX (R62 to R65). -/
def unsummedFrame (flag seq : Byte) (p : List Byte) : List Byte :=
  Config.stx :: flag :: seq :: lenByte p.length :: (p ++ [0, Config.etx])

/-- TXBUF once the cells before the checksum are written (R62 to R65). -/
def filledBuffer (flag : Byte) (p : List Byte) (s : State) : Buffer :=
  fillCells s.txbuf 0 (unsummedFrame flag s.seqctr p)

/-- Steps R62 to R66 of ENCODE for a whole payload `p`: the cells, then XORFOLD over all `n + 6` of
them, then its result over the placeholder and not over ETX (90_conflicts.md C1). -/
def buildFrame (flag : Byte) (p : List Byte) (s : State) : Result :=
  withValue (xorFold .tx (filledBuffer flag p s) (p.length + Config.overhead)) fun cs =>
    respond (.encode (BitVec.ofNat 9 (p.length + Config.overhead)))
      { s with
        txbuf := setCell (filledBuffer flag p s) (4 + p.length) cs
        seqctr := seqNext s.seqctr
        txlen := BitVec.ofNat 9 (p.length + Config.overhead) }

/-- The payload bytes an ENCODE in flight has taken and those presented, in order (R104). -/
def offered (fl : Flight) (s : State) : List Byte := fl.got ++ s.payload

/-- ENCODE after its length check (R104): it takes payload bytes until it has `n`. With fewer
presented it takes those there are and waits (log 9); with enough it takes exactly `n`, and the rest
stay at the port. -/
def gatherPayload (fl : Flight) (s : State) : Result :=
  if (offered fl s).length < fl.n then
    .next { s with flight := some { fl with got := offered fl s }, payload := [] }
  else
    buildFrame fl.flag ((offered fl s).take fl.n)
      { s with flight := none, payload := (offered fl s).drop fl.n }

/-! ## Pushing received bytes -/

/-- RXPUSH (R92, R93). -/
def pushByte (b : Byte) (s : State) : Result :=
  if s.rxlen.toNat = Config.bufSize then raise .rxOverflow { s with rxovf := true }
  else
    withValue (writeCell .rx s.rxbuf s.rxlen.toNat b) fun m =>
      respond (.rxpush (s.rxlen + 1)) { s with rxbuf := m, rxlen := s.rxlen + 1 }

/-- Received bytes pushed one by one in the order they arrived (R28). -/
def pushBytes : List Byte → State → Result
  | [], s => .next s
  | b :: bs, s => andThen (pushByte b s) (pushBytes bs)

/-! ## Reset -/

/-- The reset event (R135, R137): every register at its reset value, no cell of either buffer defined,
an operation in flight abandoned with no response. HOST's own inputs are not the block's to change
(log 17). -/
def resetBlock (s : State) : State :=
  { s with
    seqctr := 0
    txlen := 0
    rxlen := 0
    rxovf := false
    txbuf := []
    rxbuf := []
    flight := none
    wasReset := true }

end Sys2Proof.Machine
end

