-- ==== Sys2Proof/Machine/Flags.lean ====
section
/-! DEFINITION. The check bits of DECODE (spec/42_decode.md R83, R84), the verdict of VERIFY
(spec/41_verify.md R71) and the status codes (spec/60_exceptions.md R116). The block has no condition
codes (spec/10_state.md R14). -/

namespace Sys2Proof.Machine

/-- `c = stored` (R71). -/
def verdict (c stored : Byte) : Bool := c == stored

/-- `RXBUF[0] = 0x02` (R83). -/
def stxOk (first : Byte) : Bool := first == Config.stx
/-- `RXBUF[N-1] = 0x03` (R83). -/
def etxOk (last : Byte) : Bool := last == Config.etx
/-- `zext_9(dec_len) = N - 6` (R83). -/
def lenOk (flen : Byte) (n : Nat) : Bool := flen.toNat == n - Config.overhead
/-- `XORFOLD(RXBUF, N) = 0x00` (R83). -/
def csOk (fold : Byte) : Bool := fold == 0
/-- FLAG is ENQ, ACK or NAK (R83). -/
def flagKnown (flag : Byte) : Bool :=
  flag == Config.enq || flag == Config.ack || flag == Config.nak

/-- `stx_ok and etx_ok and len_ok and cs_ok and not ovf` (R84). -/
def frameOk (stx etx len cs ovf : Bool) : Bool := stx && etx && len && cs && !ovf

/-- `{frame_ok, ovf, flag_known, cs_ok, len_ok, etx_ok, stx_ok}`, bit 6 first (R80). -/
def decBits (stx etx len cs known ovf : Bool) : BitVec 7 :=
  BitVec.ofBool (frameOk stx etx len cs ovf) ++ BitVec.ofBool ovf ++ BitVec.ofBool known ++
    BitVec.ofBool cs ++ BitVec.ofBool len ++ BitVec.ofBool etx ++ BitVec.ofBool stx

/-- The status code of an error (R116). -/
def errorCode : ErrorKind → BitVec 3
  | .payloadTooLarge => 1
  | .range => 2
  | .runt => 3
  | .rxOverflow => 4
  | .illegalOp => 5

/-- `rsp_status` of a response (R116): 0 for every OK response. -/
def statusCode : Response → BitVec 3
  | .encode _ => 0
  | .txrd _ => 0
  | .rxclr _ => 0
  | .rxpush _ => 0
  | .rxrd _ => 0
  | .verify _ => 0
  | .decode _ _ _ _ _ _ => 0
  | .error e => errorCode e

end Sys2Proof.Machine
end

