-- ==== Sys2Proof/Machine/Operands.lean ====
section
/-! DEFINITION. Operand forms (spec/30_encoding.md R48; spec/41_verify.md R77): the index and the
length operands are unsigned and compared as they stand, with no truncation and no wrap, whatever
LENW is (spec/00_scope.md R4). -/

namespace Sys2Proof.Machine

/-- `n > 250`, unsigned on the whole operand (R61). -/
def payloadTooLong (n : Nat) : Bool := decide (Config.maxPayload < n)

/-- `i >= LEN`, the length register widened with zeros (R48, R90, R94). -/
def outOfRange (i : Nat) (len : Len) : Bool := decide (len.toNat ≤ i)

/-- The frame length a LEN byte announces, `N = LEN + 6` (R44). -/
def announcedLength (len : Byte) : Nat := len.toNat + Config.overhead

/-- How many bytes of the frame follow its first four, `LEN + 2` (R44). -/
def bytesAfterHeader (len : Byte) : Nat := len.toNat + 2

/-- The first four bytes of a frame, in frame order (R40). -/
def headerBytes (flag seq len : Byte) : List Byte := [Config.stx, flag, seq, len]

/-- The last two bytes of a frame, in frame order (R40). -/
def trailerBytes (cs : Byte) : List Byte := [cs, Config.etx]

end Sys2Proof.Machine
end

