-- ==== Sys2Proof/Machine/Checker.lean ====
section
/-! DEFINITION. The checksum validator, VERIFY (spec/41_verify.md R71 to R73), and the decoder, DECODE
(spec/42_decode.md R80 to R87). Neither changes any of the block's state. -/

namespace Sys2Proof.Machine

/-- VERIFY (R71, R73, R119), for `N = RXLEN`. -/
def execVerify (s : State) : Result :=
  if s.rxlen.toNat < 2 then raise .runt s
  else
    withValue (readCell .rx s.rxbuf (s.rxlen.toNat - 2)) fun stored =>
    withValue (xorFoldMasked .rx s.rxbuf (s.rxlen.toNat - 2) s.rxlen.toNat) fun c =>
      respond (.verify (verdict c stored)) s

/-- DECODE (R80 to R84, R119), for `N = RXLEN`: fields by position (R82), each check bit on its own
(R83). -/
def execDecode (s : State) : Result :=
  if s.rxlen.toNat < Config.overhead then raise .runt s
  else
    withValue (readCell .rx s.rxbuf 0) fun first =>
    withValue (readCell .rx s.rxbuf 1) fun flag =>
    withValue (readCell .rx s.rxbuf 2) fun seq =>
    withValue (readCell .rx s.rxbuf 3) fun flen =>
    withValue (readCell .rx s.rxbuf (s.rxlen.toNat - 2)) fun cs =>
    withValue (readCell .rx s.rxbuf (s.rxlen.toNat - 1)) fun last =>
    withValue (xorFold .rx s.rxbuf s.rxlen.toNat) fun fold =>
      respond
        (.decode s.rxlen flag seq flen cs
          (decBits (stxOk first) (etxOk last) (lenOk flen s.rxlen.toNat) (csOk fold) (flagKnown flag)
            s.rxovf)) s

end Sys2Proof.Machine
end

