-- ==== Sys2Proof/Machine/Encoder.lean ====
section
/-! DEFINITION. The transmit side: op code 0 (spec/30_encoding.md R52), ENCODE (spec/40_encode.md) and
TXRD (spec/43_buffer_access.md R90). -/

namespace Sys2Proof.Machine

/-- Op code 0: `raise IllegalOp()`, nothing changes, no payload byte is taken (R52, R121). -/
def execIllegal (s : State) : Result := raise .illegalOp s

/-- ENCODE (R60): the length check before anything else (R61, R117), then the payload (R104), then the
frame (R62 to R66). -/
def execEncode (flag : Byte) (n : Nat) (s : State) : Result :=
  if payloadTooLong n then raise .payloadTooLarge { s with txlen := 0 }
  else gatherPayload { flag := flag, n := n, got := [] } s

/-- TXRD (R90, R118). -/
def execTxrd (i : Nat) (s : State) : Result :=
  if outOfRange i s.txlen then raise .range s
  else withValue (readCell .tx s.txbuf i) fun v => respond (.txrd v) s

end Sys2Proof.Machine
end

