-- ==== Sys2Proof/Machine/Receiver.lean ====
section
/-! DEFINITION. The receive buffer: RXCLR, RXPUSH, RXRD (spec/43_buffer_access.md R91 to R94). -/

namespace Sys2Proof.Machine

/-- RXCLR (R91): no cell changes. -/
def execRxclr (s : State) : Result :=
  respond (.rxclr 0) { s with rxlen := 0, rxovf := false }

/-- RXPUSH (R92, R93, R120). -/
def execRxpush (b : Byte) (s : State) : Result := pushByte b s

/-- RXRD (R94, R118). -/
def execRxrd (i : Nat) (s : State) : Result :=
  if outOfRange i s.rxlen then raise .range s
  else withValue (readCell .rx s.rxbuf i) fun v => respond (.rxrd v) s

end Sys2Proof.Machine
end

