-- ==== Sys2Proof/Machine/Wire.lean ====
section
/-! DEFINITION. The wire-frame rows of the opcode table (spec/30_encoding.md R40, R42, R45). They are
no operations of the port: they are bytes of a frame as it arrives. What the block does with received
bytes is one RXPUSH each, in the order they arrived (spec/20_memory.md R28; spec/43_buffer_access.md
R92, R93), and that is their meaning here (log 3). -/

namespace Sys2Proof.Machine

/-- FRAME.ENQ arrives: `02 05 seq len` are pushed (R40, R42). -/
def execFrameEnq (seq len : Byte) (s : State) : Result :=
  pushBytes (headerBytes Config.enq seq len) s

/-- FRAME.ACK arrives: `02 06 seq len` are pushed (R40, R42). -/
def execFrameAck (seq len : Byte) (s : State) : Result :=
  pushBytes (headerBytes Config.ack seq len) s

/-- FRAME.NAK arrives: `02 15 seq len` are pushed (R40, R42). -/
def execFrameNak (seq len : Byte) (s : State) : Result :=
  pushBytes (headerBytes Config.nak seq len) s

/-- FRAME.ANY arrives: `02 flag seq len` are pushed, whatever the flag (R40, R51). -/
def execFrameAny (flag seq len : Byte) (s : State) : Result :=
  pushBytes (headerBytes flag seq len) s

/-- FRAME.TRAILER arrives: `cs 03` are pushed (R40, R45). -/
def execFrameTrailer (cs : Byte) (s : State) : Result := pushBytes (trailerBytes cs) s

end Sys2Proof.Machine
end

