-- ==== Sys2Proof/Machine/Dispatch.lean ====
section
/-! DEFINITION. One arm per instruction, one direct call of its meaning. -/

namespace Sys2Proof.Machine

def exec (i : Instr) (s : State) : Host.Outcome State Fault Refusal :=
  match i with
  | .illegal => Sys2Proof.Machine.execIllegal s
  | .encode flag n => Sys2Proof.Machine.execEncode flag n s
  | .txrd idx => Sys2Proof.Machine.execTxrd idx s
  | .rxclr => Sys2Proof.Machine.execRxclr s
  | .rxpush b => Sys2Proof.Machine.execRxpush b s
  | .rxrd idx => Sys2Proof.Machine.execRxrd idx s
  | .verify => Sys2Proof.Machine.execVerify s
  | .decode => Sys2Proof.Machine.execDecode s
  | .frameEnq seq len => Sys2Proof.Machine.execFrameEnq seq len s
  | .frameAck seq len => Sys2Proof.Machine.execFrameAck seq len s
  | .frameNak seq len => Sys2Proof.Machine.execFrameNak seq len s
  | .frameAny flag seq len => Sys2Proof.Machine.execFrameAny flag seq len s
  | .frameTrailer cs => Sys2Proof.Machine.execFrameTrailer cs s

end Sys2Proof.Machine
end

