-- ==== Sys2Proof/Machine/Events.lean ====
section
/-! DEFINITION. One step of the block from HOST's inputs: accepting a presented word, the wait of an
ENCODE for its payload, reset, idling (spec/44_port_protocol.md R101 to R109; spec/00_scope.md R8;
spec/60_exceptions.md R130, R131; spec/70_reset_and_hazards.md R135 to R138). -/

namespace Sys2Proof.Machine

/-- A step begins with no response of its own and a fresh free value (R105; log 13). -/
def freshStep (s : State) : State := { s with responses := [], draws := s.draws + 1 }

/-- A presented word is accepted (R101) and its operation runs. Before the first reset no rule holds
(R138; log 12). -/
def acceptWord (w : RawWord) (s : State) : Result :=
  if s.wasReset then
    match decode w with
    | .ok i => exec i s
    | .error e => .refused (.undecodable e)
  else .refused .beforeFirstReset

/-- No operation in flight: HOST's next event. With none, the block idles and keeps its state (R130).
An operation abandoned by a reset leaves the reset state and no response (R137; log 10). -/
def takeEvent (s : State) : Result :=
  match s.host with
  | [] => .next s
  | .present w :: rest => acceptWord w { s with host := rest }
  | .breakHandshake :: _ => .refused .handshakeBroken
  | .abandon _ :: rest => .next (resetBlock { s with host := rest })
  | .reset :: rest => .next (resetBlock { s with host := rest })

/-- An ENCODE waits for its payload (R104). It ends when the bytes are there; else only a reset ends
it, and a word HOST holds at the operation port meanwhile is not accepted (R102; log 10). -/
def waitFlight (fl : Flight) (s : State) : Result :=
  if fl.n ≤ (offered fl s).length then gatherPayload fl s
  else
    match s.host.head? with
    | some .breakHandshake => .refused .handshakeBroken
    | _ =>
      if s.host.contains .reset then .next (resetBlock { s with host := s.host.erase .reset })
      else gatherPayload fl s

/-- An ENCODE in flight in a block that no reset has reached yet. No run gets there, since an operation
before the first reset is refused; the spec gives the state no meaning (R138) and U9 says to refuse, so
nothing but a reset goes on from it (log 12). -/
def unresetFlight (s : State) : Result :=
  match s.host with
  | .reset :: rest => .next (resetBlock { s with host := rest })
  | _ => .refused .beforeFirstReset

/-- One step (R8): an operation, a reset, or nothing to do. -/
def runStep (s : State) : Result :=
  match s.flight with
  | none => takeEvent (freshStep s)
  | some fl => if s.wasReset then waitFlight fl (freshStep s) else unresetFlight (freshStep s)

/-! ## Presenting a word of the opcode table -/

/-- How many payload bytes an operation takes from the payload port (R104). -/
def payloadNeeded : Instr → Nat
  | .illegal => 0
  | .encode _ n => if payloadTooLong n then 0 else n
  | .txrd _ => 0
  | .rxclr => 0
  | .rxpush _ => 0
  | .rxrd _ => 0
  | .verify => 0
  | .decode => 0
  | .frameEnq _ _ => 0
  | .frameAck _ _ => 0
  | .frameNak _ _ => 0
  | .frameAny _ _ _ => 0
  | .frameTrailer _ => 0

/-- HOST presents `w` as its next act, with as many zero payload bytes as it takes (log 2). -/
def presentWord (w : RawWord) (s : State) : State :=
  { s with
    host := .present w :: s.host
    payload :=
      (match decode w with
        | .ok i => List.replicate (payloadNeeded i) 0
        | .error _ => []) ++ s.payload
    flight := none
    wasReset := true }

/-- The same for a word as spec/opcode_table.json numbers it (log 4). -/
def presentTableWord (s : State) (nbits w : Nat) : State :=
  match rawOfTable nbits w with
  | none => s
  | some r => presentWord r s

end Sys2Proof.Machine
end

