-- ==== Sys2Proof/Machine/Step.lean ====
section
/-! DEFINITION. The step of the machine, and where the host puts an instruction for the next step. -/

namespace Sys2Proof.Machine

/-- One step of the block: one operation, one reset, or an idle or waiting step (spec/00_scope.md R8). -/
def step (s : State) : Host.Outcome State Fault Refusal := runStep s

/-- The word `w` of `nbits` bits stands at the operation port, so that the next step runs it. -/
def State.withFetchWord (s : State) (nbits w : Nat) : State := presentTableWord s nbits w

end Sys2Proof.Machine
end

