-- ==== Sys2Proof/Machine/Notation.lean ====
section
/-! DEFINITION. The textual notation of programs (spec/30_encoding.md R46, R55). It names operations and
changes nothing (log 22). -/

namespace Sys2Proof.Machine

/-- A hexadecimal digit, capitals as in the listings. -/
def hexDigit (n : Nat) : Char :=
  if n % 16 < 10 then Char.ofNat (48 + n % 16) else Char.ofNat (55 + n % 16)

/-- `k` hexadecimal digits of `n`, the most significant first. -/
def hexDigits : Nat → Nat → List Char
  | 0, _ => []
  | k + 1, n => hexDigit (n / 16 ^ k) :: hexDigits k n

/-- A byte as in frame listings, `41` (R5). -/
def byteText (b : Byte) : String := String.ofList (hexDigits 2 b.toNat)

/-- An operation word in hexadecimal, seven digits at LENW = 16 (R46). -/
def opWordText {lenw : Nat} (w : OpWord lenw) : String :=
  String.ofList (hexDigits ((3 + 8 + lenw + 3) / 4) w.toNat)

/-- Bytes separated by spaces. -/
def bytesText : List Byte → String
  | [] => ""
  | [b] => byteText b
  | b :: bs => byteText b ++ " " ++ bytesText bs

/-- The line of an operation (R55); `p` is the payload HOST presents with an ENCODE. -/
def instrText (p : List Byte) : Instr → String
  | .illegal => "ILLEGAL"
  | .encode flag n =>
    if payloadTooLong n then "ENCODE 0x" ++ byteText flag ++ ", n=" ++ toString n
    else "ENCODE 0x" ++ byteText flag ++ ", [" ++ bytesText (p.take n) ++ "]"
  | .txrd i => "TXRD " ++ toString i
  | .rxclr => "RXCLR"
  | .rxpush b => "RXPUSH 0x" ++ byteText b
  | .rxrd i => "RXRD " ++ toString i
  | .verify => "VERIFY"
  | .decode => "DECODE"
  | .frameEnq seq len => "FRAME.ENQ " ++ bytesText (headerBytes Config.enq seq len)
  | .frameAck seq len => "FRAME.ACK " ++ bytesText (headerBytes Config.ack seq len)
  | .frameNak seq len => "FRAME.NAK " ++ bytesText (headerBytes Config.nak seq len)
  | .frameAny flag seq len => "FRAME.ANY " ++ bytesText (headerBytes flag seq len)
  | .frameTrailer cs => "FRAME.TRAILER " ++ bytesText (trailerBytes cs)

/-- The line of a HOST event; RESET is no operation (R55). -/
def eventText (p : List Byte) : HostEvent → String
  | .present w =>
    match decode w with
    | .ok i => instrText p i
    | .error _ => "; no row of the table"
  | .breakHandshake => "; handshake broken"
  | .abandon _ => "RESET"
  | .reset => "RESET"

end Sys2Proof.Machine
end

