-- ==== Sys2Proof/Machine/Ports.lean ====
section
/-! DEFINITION. The output side of the ports (spec/44_port_protocol.md R100, R102, R104, R105): what the
pins carry. A field the spec does not list for a response, and every field of a cycle without one, is
a free value (spec/30_encoding.md R49; log 13). -/

namespace Sys2Proof.Machine

/-- `op_ready`: no operation is in flight (R102; log 21). -/
def opReady (s : State) : Bool := s.flight.isNone

/-- `pl_ready`: an ENCODE is waiting for payload bytes (R104). -/
def plReady (s : State) : Bool := s.flight.isSome

/-- The pins of a cycle without a response (R105). -/
def quietPins (k j : Nat) : Config.RspPins :=
  { Config.unspecifiedPins k j with rspValid := false }

/-- The pins of a response cycle: the listed fields, the rest unspecified (R49, R105). -/
def pinsOf (k j : Nat) (r : Response) : Config.RspPins :=
  let u := { Config.unspecifiedPins k j with rspValid := true, rspStatus := statusCode r }
  match r with
  | .encode len => { u with rspLen := len }
  | .txrd data => { u with rspData := data }
  | .rxclr len => { u with rspLen := len }
  | .rxpush len => { u with rspLen := len }
  | .rxrd data => { u with rspData := data }
  | .verify ok => { u with rspOk := ok }
  | .decode len flag seq flen cs bits =>
    { u with rspLen := len, decFlag := flag, decSeq := seq, decLen := flen, decCs := cs, decBits := bits }
  | .error _ => u

/-- The pins of the responses in order, the first at place `j` of the step. -/
def pinsFrom (k : Nat) : Nat → List Response → List Config.RspPins
  | _, [] => []
  | j, r :: rs => pinsOf k j r :: pinsFrom k (j + 1) rs

/-- The response cycles of the last step; one quiet cycle when it gave none (R105). -/
def pinCycles (s : State) : List Config.RspPins :=
  match s.responses with
  | [] => [quietPins s.draws 0]
  | r :: rs => pinsFrom s.draws 0 (r :: rs)

end Sys2Proof.Machine
end

