-- ==== Sys2Proof/Machine/Pseudo.lean ====
section
/-! DEFINITION. The pseudo-operations SEND, DRAIN, RXLOAD and LOOPBACK (spec/30_encoding.md R56): runs of
operations HOST issues one after another. The responses of a run stand in State in order. -/

namespace Sys2Proof.Machine

/-- The operations of a list, one after another (R34). -/
def runOps : List Instr → State → Result
  | [], s => .next s
  | i :: is, s => andThen (exec i s) (runOps is)

/-- HOST issues ENCODE with a payload, which it presents at the payload port (R60, R104): the bytes go
ahead of what is there when the operation will take them. The operand is the length as it stands, with
no truncation: a list of 2^LENW bytes or more cannot be presented at that LENW (D8), and what this gives
for it is what a wider LENW gives, PayloadTooLarge (log 14). -/
def encodeWith (flag : Byte) (p : List Byte) (s : State) : Result :=
  exec (.encode flag p.length)
    (if p.length ≤ Config.maxPayload then { s with payload := p ++ s.payload } else s)

/-- `SEND [bytes]` is `ENCODE 0x05, [bytes]` (R56). -/
def send (p : List Byte) (s : State) : Result := encodeWith Config.enq p s

/-- `DRAIN`: TXRD 0 to TXRD N-1 (R56). -/
def drainOps (n : Nat) : List Instr := (List.range n).map .txrd

/-- `RXLOAD [bytes]`: RXCLR, then one RXPUSH a byte (R56). -/
def rxloadOps (bs : List Byte) : List Instr := .rxclr :: bs.map .rxpush

/-- `for i: TXRD i giving d, RXPUSH d`, `k` cells from `i` up; where TXRD gives no byte HOST has
nothing to push and stops (R56). -/
def copyCells : Nat → Nat → State → Result
  | 0, _, s => .next s
  | k + 1, i, s =>
    andThen (exec (.txrd i) s) fun t =>
      match t.responses.getLast? with
      | some (.txrd d) => andThen (exec (.rxpush d) t) (copyCells k (i + 1))
      | _ => .next t

/-- `LOOPBACK`: RXCLR, then the cells 0 to N-1 of TXBUF moved into RXBUF (R56). -/
def loopback (n : Nat) (s : State) : Result := andThen (exec .rxclr s) (copyCells n 0)

/-- N ENCODEs in a row, each with its own flag and payload (R145). -/
def encodeAll : List (Byte × List Byte) → State → Result
  | [], s => .next s
  | (flag, p) :: rest, s => andThen (encodeWith flag p s) (encodeAll rest)

end Sys2Proof.Machine
end

