-- ==== Sys2Proof/Safety.lean ====
section
/-! DEFINITION. What statements about the block are said in: the invariants of spec/10_state.md R20, the
frame as a list of bytes (spec/30_encoding.md R40), what a state shares with another. -/

namespace Sys2Proof.Machine

/-- XOR of a list of bytes, from 0 (R74). -/
def xorBytes : List Byte → Byte
  | [] => 0
  | b :: bs => b ^^^ xorBytes bs

/-- The checksum of R68 in closed form: `0x02 ^ flag ^ s ^ n ^ p[0] ^ ... ^ 0x03`. -/
def closedChecksum (flag seq : Byte) (p : List Byte) : Byte :=
  Config.stx ^^^ flag ^^^ seq ^^^ BitVec.ofNat 8 p.length ^^^ xorBytes p ^^^ Config.etx

/-- The whole frame of R40 for a flag, a SEQ byte and a payload. -/
def frameBytes (flag seq : Byte) (p : List Byte) : List Byte :=
  [Config.stx, flag, seq, BitVec.ofNat 8 p.length] ++ p ++ [closedChecksum flag seq p, Config.etx]

/-- Cells 0 up of a buffer hold the bytes listed. -/
def holdsFrom (m : Buffer) (bs : List Byte) : Prop :=
  ∀ j, j < bs.length → cellAt m j = bs[j]?

/-- The invariants of the block (R20), with what keeps the model's own data in form. -/
structure BlockInv (s : State) : Prop where
  /-- R20 item 1. -/
  seqctr_le : s.seqctr.toNat ≤ 254
  /-- R20 item 2. -/
  txlen_legal : s.txlen.toNat = 0 ∨ (6 ≤ s.txlen.toNat ∧ s.txlen.toNat ≤ 256)
  /-- R20 item 3. -/
  rxlen_le : s.rxlen.toNat ≤ 256
  /-- R20 item 4. -/
  tx_frame : 0 < s.txlen.toNat →
    cellAt s.txbuf 0 = some Config.stx ∧
    cellAt s.txbuf 3 = some (BitVec.ofNat 8 (s.txlen.toNat - 6)) ∧
    cellAt s.txbuf (s.txlen.toNat - 1) = some Config.etx ∧
    xorFold .tx s.txbuf s.txlen.toNat = .ok 0
  /-- R20 item 5, TXBUF. -/
  tx_written : ∀ a, a < s.txlen.toNat → (cellAt s.txbuf a).isSome
  /-- R20 item 5, RXBUF. -/
  rx_written : ∀ a, a < s.rxlen.toNat → (cellAt s.rxbuf a).isSome
  /-- R20 item 6, as a property of one state: the flag is set only on a full buffer (R93; log 18). -/
  ovf_full : s.rxovf = true → s.rxlen.toNat = 256
  /-- Both buffers are in canonical form (log 5). -/
  tx_wf : bufferWf s.txbuf = true
  rx_wf : bufferWf s.rxbuf = true
  /-- An ENCODE in flight passed its length check and still waits (R104). -/
  flight_waits : ∀ fl, s.flight = some fl → fl.n ≤ 250 ∧ fl.got.length < fl.n
  /-- No operation runs before the first reset (R138; log 12). -/
  flight_reset : ∀ fl, s.flight = some fl → s.wasReset = true

/-- The operations of the sender (R129). -/
def isSender : Instr → Bool
  | .encode _ _ => true
  | .txrd _ => true
  | .illegal => false
  | .rxclr => false
  | .rxpush _ => false
  | .rxrd _ => false
  | .verify => false
  | .decode => false
  | .frameEnq _ _ => false
  | .frameAck _ _ => false
  | .frameNak _ _ => false
  | .frameAny _ _ _ => false
  | .frameTrailer _ => false

/-- The operations of the receiver (R129), the arrival of wire bytes among them (log 3). -/
def isReceiver : Instr → Bool
  | .encode _ _ => false
  | .txrd _ => false
  | .illegal => false
  | .rxclr => true
  | .rxpush _ => true
  | .rxrd _ => true
  | .verify => true
  | .decode => true
  | .frameEnq _ _ => true
  | .frameAck _ _ => true
  | .frameNak _ _ => true
  | .frameAny _ _ _ => true
  | .frameTrailer _ => true

/-- How many operations of the port an instruction is, so how many responses it gives (R49): a wire row
is one RXPUSH a byte (log 3). -/
def opCount : Instr → Nat
  | .illegal => 1
  | .encode _ _ => 1
  | .txrd _ => 1
  | .rxclr => 1
  | .rxpush _ => 1
  | .rxrd _ => 1
  | .verify => 1
  | .decode => 1
  | .frameEnq _ _ => 4
  | .frameAck _ _ => 4
  | .frameNak _ _ => 4
  | .frameAny _ _ _ => 4
  | .frameTrailer _ => 2

/-- An op code whose `arg8` is an operand (R47). -/
def usesArg8 (code : BitVec 3) : Prop := code = 1 ∨ code = 4

/-- An op code whose `arg16` is an operand (R47). -/
def usesArg16 (code : BitVec 3) : Prop := code = 1 ∨ code = 2 ∨ code = 5

/-- An operation that only reads (R32). -/
def isReader : Instr → Bool
  | .encode _ _ => false
  | .txrd _ => true
  | .illegal => false
  | .rxclr => false
  | .rxpush _ => false
  | .rxrd _ => true
  | .verify => true
  | .decode => true
  | .frameEnq _ _ => false
  | .frameAck _ _ => false
  | .frameNak _ _ => false
  | .frameAny _ _ _ => false
  | .frameTrailer _ => false

/-- RXBUF holds exactly the bytes listed, and there are at most 256 (R13, R19). -/
def rxHolds (s : State) (bs : List Byte) : Prop :=
  bs.length = s.rxlen.toNat ∧ bs.length ≤ Config.bufSize ∧ holdsFrom s.rxbuf bs

/-- The VERIFY response of a state that holds `bs`: the byte at offset N-2 against the XOR of the bytes
with that one counted as zero (R71). -/
def verdictOf (bs : List Byte) : Bool :=
  xorBytes (bs.set (bs.length - 2) 0) == bs.getD (bs.length - 2) 0

/-- The flipped buffer: byte `j` with the bits of mask `j` flipped (R76). -/
def flipped (bs masks : List Byte) : List Byte := List.zipWith (fun b d => b ^^^ d) bs masks

/-- The transmit side, and the parts of it HOST feeds, are the same. -/
def sameSender (s t : State) : Prop :=
  s.seqctr = t.seqctr ∧ s.txlen = t.txlen ∧ s.txbuf = t.txbuf ∧ s.flight = t.flight ∧
    s.payload = t.payload

/-- The receive side is the same. -/
def sameReceiver (s t : State) : Prop :=
  s.rxlen = t.rxlen ∧ s.rxovf = t.rxovf ∧ s.rxbuf = t.rxbuf

/-- A step goes wrong when it ends in a fault. -/
def stepFaults (s : State) : Prop := ∃ f, step s = .fault f

end Sys2Proof.Machine
end

