-- ==== Sys2Proof/Certificates/Slice0/Obligations.lean ====
section
/-! DEFINITION. The statements about FRAMER. Each docstring names the rule of spec/ it formalises. A next
state is written out as the state before with the fields that change, so everything not named there,
the other registers, the flag, both buffers and HOST's inputs, is unchanged. -/

open Sys2Proof Sys2Proof.Machine

/-! ## The step, reset and the invariants -/

/-- R135: reset sets the four registers to 0 and leaves every cell of both buffers unreadable. That
SEQCTR's value is 0 is the spec's decision D6; that the events HOST has still to do stay, and that the
step gives no response, is the model's (log 17, log 1, log 8). -/
def Obligations.ResetClearsRegisters : Prop :=
  ∀ (s : State) (rest : List HostEvent), s.flight = none → s.host = .reset :: rest →
    ∃ t, step s = .next t ∧
      t.seqctr = 0 ∧ t.txlen = 0 ∧ t.rxlen = 0 ∧ t.rxovf = false ∧ t.flight = none ∧
      t.host = rest ∧ t.responses = [] ∧
      (∀ i, exec (.txrd i) t = .next { t with responses := [.error .range] }) ∧
      (∀ i, exec (.rxrd i) t = .next { t with responses := [.error .range] })

/-- R137: a reset that arrives while an ENCODE waits for its payload, as HOST's next event or behind
words HOST holds, or after any operation was accepted and before its response, leaves the reset state
(SEQCTR at 0, D6, and not stepped) and no response. That a reset found behind held words ends the wait
too, and that those words stay, is the model's (log 10, log 1); so is what follows a wait in a block
that no reset has reached (log 12). -/
def Obligations.ResetAbandonsOperation : Prop :=
  (∀ (s : State) (fl : Flight) (rest : List HostEvent), s.flight = some fl →
      (s.wasReset = true → fl.got.length + s.payload.length < fl.n) → s.host = .reset :: rest →
      ∃ t, step s = .next t ∧ t.seqctr = 0 ∧ t.txlen = 0 ∧ t.rxlen = 0 ∧ t.rxovf = false ∧
        t.flight = none ∧ t.responses = [] ∧ t.host = rest) ∧
  (∀ (s : State) (fl : Flight), s.wasReset = true → s.flight = some fl →
      fl.got.length + s.payload.length < fl.n → s.host.head? ≠ some .breakHandshake →
      HostEvent.reset ∈ s.host →
      ∃ t, step s = .next t ∧ t.seqctr = 0 ∧ t.txlen = 0 ∧ t.rxlen = 0 ∧ t.rxovf = false ∧
        t.flight = none ∧ t.responses = [] ∧ t.host = s.host.erase .reset) ∧
  (∀ (s : State) (w : RawWord) (rest : List HostEvent), s.flight = none →
      s.host = .abandon w :: rest →
      ∃ t, step s = .next t ∧ t.seqctr = 0 ∧ t.txlen = 0 ∧ t.rxlen = 0 ∧ t.rxovf = false ∧
        t.flight = none ∧ t.responses = [] ∧ t.host = rest)

/-- R20: the invariants hold after reset. -/
def Obligations.InvariantsAtReset : Prop := BlockInv State.reset

/-- R20: every step keeps the invariants, from every state that meets them. -/
def Obligations.StepKeepsInvariants : Prop :=
  ∀ s t, BlockInv s → step s = .next t → BlockInv t

/-- U7, R131: from a state that meets the invariants no step reads a cell nothing has written or
touches a cell that does not exist. -/
def Obligations.StepNeverFaults : Prop :=
  ∀ s, BlockInv s → ¬ stepFaults s

/-- R131, R49: from a state that meets the invariants every operation gives a next state, and one
response for each operation of the port it is; or it is an ENCODE whose payload is not all there, which
waits with no response. -/
def Obligations.EveryOperationAnswers : Prop :=
  ∀ (i : Instr) (s : State), BlockInv s → s.flight = none →
    ∃ t rs, exec i s = .next t ∧ t.responses = s.responses ++ rs ∧
      ((t.flight = none ∧ rs.length = opCount i) ∨
        (rs = [] ∧ ∃ flag n, i = .encode flag n ∧ n ≤ 250 ∧ s.payload.length < n ∧
          t.flight = some { flag := flag, n := n, got := s.payload }))

/-- R8, R101, R108: with no operation in flight, a step takes the word HOST presents and runs the
instruction it decodes to; around it the step only drops the last responses, counts a free value and
removes the word from HOST's list. Every operation word decodes, whatever LENW is (R4: 9 or more). -/
def Obligations.StepRunsDecodedWord : Prop :=
  (∀ (s : State) (w : RawWord) (rest : List HostEvent) (i : Instr),
      s.wasReset = true → s.flight = none → s.host = .present w :: rest → decode w = .ok i →
      step s = exec i { s with host := rest, responses := [], draws := s.draws + 1 }) ∧
  (∀ (lenw : Nat) (w : OpWord lenw), 9 ≤ lenw → decode (.opword lenw w) = .ok (decodeOp w))

/-- R130: with nothing presented the block changes nothing; the step only drops the last response,
which stands for one cycle (R105), and counts a free value. -/
def Obligations.IdleBlockKeepsState : Prop :=
  ∀ s : State, s.flight = none → s.host = [] →
    step s = .next { s with responses := [], draws := s.draws + 1 }

/-- R109, U6, R138, U9: HOST breaking the request handshake, with no operation in flight or while an
ENCODE waits (log 11), and an operation before the first reset, one in flight in a block that no reset
has reached among them (log 12), have no meaning: the step refuses. So it does, by the model's choice
(log 20, log 14), on a presented word that is no row of the table: a header without STX, a trailer
without ETX, an operation word of a LENW below 9. -/
def Obligations.MeaninglessRunsRefused : Prop :=
  (∀ (s : State) (rest : List HostEvent), s.flight = none → s.host = .breakHandshake :: rest →
      step s = .refused .handshakeBroken) ∧
  (∀ (s : State) (fl : Flight) (rest : List HostEvent), s.wasReset = true → s.flight = some fl →
      fl.got.length + s.payload.length < fl.n → s.host = .breakHandshake :: rest →
      step s = .refused .handshakeBroken) ∧
  (∀ (s : State) (w : RawWord) (rest : List HostEvent), s.wasReset = false → s.flight = none →
      s.host = .present w :: rest → step s = .refused .beforeFirstReset) ∧
  (∀ (s : State) (fl : Flight), s.wasReset = false → s.flight = some fl →
      s.host.head? ≠ some .reset → step s = .refused .beforeFirstReset) ∧
  (∀ (s : State) (rest : List HostEvent), s.wasReset = true → s.flight = none →
      (∀ b0 b1 b2 b3 : Byte, b0 ≠ 0x02 → s.host = .present (.header (packHeader b0 b1 b2 b3)) :: rest →
        step s = .refused (.undecodable .headerWithoutStx)) ∧
      (∀ c e : Byte, e ≠ 0x03 → s.host = .present (.trailer (packTrailer c e)) :: rest →
        step s = .refused (.undecodable .trailerWithoutEtx)) ∧
      (∀ (lenw : Nat) (w : OpWord lenw), lenw < 9 → s.host = .present (.opword lenw w) :: rest →
        step s = .refused (.undecodable .narrowLenw)))

/-! ## Encodings -/

/-- R40, R45 to R47: decoding the word of a well-formed instruction gives it back, in the packed form of
the opcode table and in that of every other LENW (R4: 9 or more). -/
def Obligations.DecodeAfterEncode : Prop :=
  (∀ i : Instr, i.wf = true → decode (encode i) = .ok i) ∧
  (∀ (lenw : Nat) (i : Instr), 9 ≤ lenw → i.wfAt lenw = true → decode (encodeAt lenw i) = .ok i)

/-- R53: two operation words are the same operation exactly when they agree on the op code and on the
fields that op code uses. That the encoder writes the ignored fields as zero, as listings do, is the
model's choice (log 22). -/
def Obligations.IgnoredFieldsChangeNothing : Prop :=
  (∀ (lenw : Nat) (w w' : OpWord lenw), decodeOp w = decodeOp w' ↔
    opCode w = opCode w' ∧ (usesArg8 (opCode w) → opArg8 w = opArg8 w') ∧
      (usesArg16 (opCode w) → opArg16 w = opArg16 w')) ∧
  (∀ (lenw : Nat) (w : OpWord lenw), ∃ v : OpWord lenw,
    encodeAt lenw (decodeOp w) = .opword lenw v ∧ decodeOp v = decodeOp w ∧
    (¬ usesArg8 (opCode w) → opArg8 v = 0) ∧ (¬ usesArg16 (opCode w) → opArg16 v = 0))

/-- R46, R47, spec/opcode_table.json: a word decodes only to an instruction of a row whose fixed bits
it has, and what it decodes to is well formed at the word's LENW. -/
def Obligations.DecodedWordIsInItsRow : Prop :=
  ∀ (w : RawWord) (i : Instr), decode w = .ok i → w.inRow i.row = true ∧ i.wfAt w.lenw = true

/-- R46 to R48 and R4: the operation word is op code, `arg8`, `arg16` from the most significant bit
down, the last in LENW bits; the operands are those fields as they stand, and the operation does not
depend on LENW. -/
def Obligations.OperationWordFields : Prop :=
  ∀ lenw c a n : Nat, 9 ≤ lenw → c < 8 → a < 256 → n < 2 ^ lenw →
    decode (.opword lenw (BitVec.ofNat (3 + 8 + lenw) ((c * 256 + a) * 2 ^ lenw + n))) =
      .ok (if c = 0 then .illegal
        else if c = 1 then .encode (BitVec.ofNat 8 a) n
        else if c = 2 then .txrd n
        else if c = 3 then .rxclr
        else if c = 4 then .rxpush (BitVec.ofNat 8 a)
        else if c = 5 then .rxrd n
        else if c = 6 then .verify
        else .decode)

/-- R40, R45: the bytes of a header and a trailer word, and the words that are no row. -/
def Obligations.WireWordFields : Prop :=
  (∀ b0 b1 b2 b3 : Byte, decode (.header (packHeader b0 b1 b2 b3)) =
      if b0 ≠ 0x02 then .error .headerWithoutStx
      else if b1 = 0x05 then .ok (.frameEnq b2 b3)
      else if b1 = 0x06 then .ok (.frameAck b2 b3)
      else if b1 = 0x15 then .ok (.frameNak b2 b3)
      else .ok (.frameAny b1 b2 b3)) ∧
  (∀ c e : Byte, decode (.trailer (packTrailer c e)) =
      if e ≠ 0x03 then .error .trailerWithoutEtx else .ok (.frameTrailer c))

/-- Words written out from the encodings (R46, R40, R45; rows VE1, VB6, VB7, VB15, VI3 of
95_test_vectors.md). -/
def Obligations.ListedWordsDecode : Prop :=
  decode (.opword 16 0x1050002) = .ok (.encode 0x05 2) ∧
  decode (.opword 16 0x200FFFF) = .ok (.txrd 65535) ∧
  decode (.opword 16 0x2AB0006) = .ok (.txrd 6) ∧
  decode (.opword 16 0x4550000) = .ok (.rxpush 0x55) ∧
  decode (.opword 16 0x0050002) = .ok .illegal ∧
  decode (.header 0x02050002) = .ok (.frameEnq 0x00 0x02) ∧
  decode (.trailer 0x0503) = .ok (.frameTrailer 0x05)

/-! ## The transmit side -/

/-- R52: op code 0, and only it, is the illegal operation, whatever the other fields; it changes
nothing, takes no payload byte and answers ILLEGAL_OP. -/
def Obligations.IllegalOpChangesNothing : Prop :=
  (∀ (lenw : Nat) (w : OpWord lenw), decodeOp w = .illegal ↔ opCode w = 0) ∧
  (∀ s : State, exec .illegal s =
    .next { s with responses := s.responses ++ [.error .illegalOp] })

/-- R61, R117: a payload length above 250 fails before anything else: TXLEN becomes 0 and nothing else
changes, and no TXRD then returns a byte. TXLEN <- 0 and the kept counter are the spec's decision D7. -/
def Obligations.EncodeTooLargeFails : Prop :=
  ∀ (s : State) (flag : Byte) (n : Nat), 250 < n →
    ∃ t, exec (.encode flag n) s = .next t ∧
      t = { s with txlen := 0, responses := s.responses ++ [.error .payloadTooLarge] } ∧
      ∀ i, exec (.txrd i) t = .next { t with responses := t.responses ++ [.error .range] }

/-- R62 to R66, R104: with `n` at most 250 and its payload presented, ENCODE leaves in TXBUF the frame
of R40 for the flag, the old SEQCTR and the first `n` payload bytes, which it takes and no more; SEQCTR
steps modulo 255, TXLEN and `rsp_len` are `n + 6`; the cells above the frame keep what they held, and
nothing else changes. -/
def Obligations.EncodeBuildsFrame : Prop :=
  ∀ (s : State) (flag : Byte) (n : Nat), n ≤ 250 → n ≤ s.payload.length →
    ∃ t, exec (.encode flag n) s = .next t ∧
      t = { s with
        txbuf := t.txbuf
        seqctr := t.seqctr
        txlen := t.txlen
        flight := none
        payload := s.payload.drop n
        responses := s.responses ++ [.encode t.txlen] } ∧
      holdsFrom t.txbuf (frameBytes flag s.seqctr (s.payload.take n)) ∧
      (∀ a, n + 6 ≤ a → cellAt t.txbuf a = cellAt s.txbuf a) ∧
      t.seqctr.toNat = (s.seqctr.toNat + 1) % 255 ∧
      t.txlen.toNat = n + 6

/-- R68: the checksum of a built frame in closed form, both lines of the rule. -/
def Obligations.EncodeChecksumClosedForm : Prop :=
  ∀ (s : State) (flag : Byte) (n : Nat), n ≤ 250 → n ≤ s.payload.length →
    ∃ t, exec (.encode flag n) s = .next t ∧
      cellAt t.txbuf (n + 4) =
        some (0x02 ^^^ flag ^^^ s.seqctr ^^^ BitVec.ofNat 8 n ^^^
          xorBytes (s.payload.take n) ^^^ 0x03) ∧
      cellAt t.txbuf (n + 4) =
        some (0x01 ^^^ flag ^^^ s.seqctr ^^^ BitVec.ofNat 8 n ^^^
          xorBytes (s.payload.take n))

/-- R20 item 4 with R44, R66 and R75: the frame an ENCODE leaves standing in TXBUF gives its length in
its LEN byte (TXLEN in all, LEN + 2 bytes after the first four), and all its bytes fold to zero. -/
def Obligations.StandingFrameFoldsToZero : Prop :=
  ∀ (s : State) (flag : Byte) (n : Nat), n ≤ 250 → n ≤ s.payload.length →
    ∃ t len, exec (.encode flag n) s = .next t ∧ cellAt t.txbuf 3 = some len ∧
      announcedLength len = t.txlen.toNat ∧ 4 + bytesAfterHeader len = t.txlen.toNat ∧
      xorFold .tx t.txbuf t.txlen.toNat = .ok 0

/-- R104, R102: an ENCODE whose payload is not all presented takes what is there, gives no response and
changes none of the block's registers and buffers; the block then takes payload bytes and no
operation. -/
def Obligations.EncodeWaitsForPayload : Prop :=
  ∀ (s : State) (flag : Byte) (n : Nat), n ≤ 250 → s.payload.length < n →
    ∃ t, exec (.encode flag n) s = .next t ∧
      t = { s with
        flight := some { flag := flag, n := n, got := s.payload }
        payload := [] } ∧
      plReady t = true ∧ opReady t = false

/-- R104, R108: gaps between payload bytes are not observable. An ENCODE that found only `a` presented
and later finds `b` ends in the state it would have reached with all of it presented at once. (A block
that no reset has reached runs no ENCODE: R138, log 12.) -/
def Obligations.PayloadGapsUnobservable : Prop :=
  ∀ (s : State) (flag : Byte) (n : Nat) (a b : List Byte), s.wasReset = true → n ≤ 250 →
    a.length < n → n ≤ (a ++ b).length →
    ∃ t u, exec (.encode flag n) { s with payload := a } = .next t ∧
      step { t with payload := b } = .next u ∧
      exec (.encode flag n)
        { s with payload := a ++ b, responses := [], draws := s.draws + 1 } = .next u

/-- R102, R104: while an ENCODE waits and HOST neither resets nor breaks the handshake, a step accepts
nothing: HOST's events, the registers and the buffers stay, the bytes presented are taken, and there is
no response. -/
def Obligations.WaitingEncodeBlocksPort : Prop :=
  ∀ (s : State) (fl : Flight), s.wasReset = true → s.flight = some fl →
    fl.got.length + s.payload.length < fl.n → HostEvent.reset ∉ s.host →
    s.host.head? ≠ some .breakHandshake →
    step s = .next { s with
      flight := some { fl with got := fl.got ++ s.payload }
      payload := []
      responses := []
      draws := s.draws + 1 }

/-- R90, R118: TXRD answers the byte of its cell below TXLEN and RANGE at or above it, and changes
nothing. -/
def Obligations.TxrdReadsCell : Prop :=
  ∀ (s : State) (i : Nat), BlockInv s →
    (i < s.txlen.toNat →
      ∃ v, cellAt s.txbuf i = some v ∧
        exec (.txrd i) s = .next { s with responses := s.responses ++ [.txrd v] }) ∧
    (s.txlen.toNat ≤ i →
      exec (.txrd i) s = .next { s with responses := s.responses ++ [.error .range] })

/-- R67, R11: only an ENCODE that builds a frame changes SEQCTR, and it steps it by one modulo 255; no
other operation, and no failing ENCODE, takes it back or moves it. -/
def Obligations.OnlyBuiltFramesStepCounter : Prop :=
  ∀ (i : Instr) (s t : State), exec i s = .next t →
    t.seqctr = s.seqctr ∨
      ∃ flag n, i = .encode flag n ∧ n ≤ 250 ∧ t.flight = none ∧
        t.responses = s.responses ++ [.encode t.txlen] ∧
        t.seqctr.toNat = (s.seqctr.toNat + 1) % 255

/-- R63, R145 (the source's property V4): N successful ENCODEs in a row carry SEQ bytes `k`, `k + 1`, …
modulo 255, for every starting value `k`. It rests on the spec's decision D5. -/
def Obligations.SuccessiveFramesCountModulo255 : Prop :=
  ∀ (s : State) (fs : List (Byte × List Byte)) (flag : Byte) (p : List Byte),
    s.seqctr.toNat ≤ 254 → (∀ f ∈ fs, f.2.length ≤ 250) → p.length ≤ 250 →
    ∃ t, encodeAll (fs ++ [(flag, p)]) s = .next t ∧
      cellAt t.txbuf 2 = some (BitVec.ofNat 8 ((s.seqctr.toNat + fs.length) % 255)) ∧
      t.seqctr.toNat = (s.seqctr.toNat + fs.length + 1) % 255

/-- R56, R90: DRAIN after an ENCODE gives the bytes of its frame in frame order and changes nothing. -/
def Obligations.DrainGivesFrameInOrder : Prop :=
  ∀ (s : State) (flag : Byte) (p : List Byte), p.length ≤ 250 →
    ∃ a b, encodeWith flag p s = .next a ∧ runOps (drainOps (p.length + 6)) a = .next b ∧
      b = { a with
        responses := a.responses ++ (frameBytes flag s.seqctr p).map .txrd }

/-! ## The receive side -/

/-- R91: RXCLR sets RXLEN and RXOVF to 0 and changes nothing else; no cell is readable after it, and a
second RXCLR changes nothing more (R32). -/
def Obligations.RxclrEmptiesBuffer : Prop :=
  ∀ s : State, ∃ t, exec .rxclr s = .next t ∧
    t = { s with rxlen := 0, rxovf := false, responses := s.responses ++ [.rxclr 0] } ∧
    (∀ i, exec (.rxrd i) t = .next { t with responses := t.responses ++ [.error .range] }) ∧
    exec .rxclr t = .next { t with responses := t.responses ++ [.rxclr 0] }

/-- R92: below 256 bytes RXPUSH writes the byte to cell RXLEN, adds one to RXLEN, answers the new
value, and changes no other cell and nothing else. -/
def Obligations.RxpushAppendsByte : Prop :=
  ∀ (s : State) (b : Byte), s.rxlen.toNat < 256 →
    ∃ t, exec (.rxpush b) s = .next t ∧
      t = { s with
        rxbuf := t.rxbuf
        rxlen := t.rxlen
        responses := s.responses ++ [.rxpush t.rxlen] } ∧
      t.rxlen.toNat = s.rxlen.toNat + 1 ∧
      cellAt t.rxbuf s.rxlen.toNat = some b ∧
      (∀ a, a ≠ s.rxlen.toNat → cellAt t.rxbuf a = cellAt s.rxbuf a)

/-- R93: at 256 bytes RXPUSH drops the byte, sets RXOVF and answers RX_OVERFLOW; RXOVF then stays set
under every operation but RXCLR, and DECODE reports it as bit 5. -/
def Obligations.RxpushOnFullBufferDrops : Prop :=
  (∀ (s : State) (b : Byte), s.rxlen.toNat = 256 →
    exec (.rxpush b) s =
      .next { s with rxovf := true, responses := s.responses ++ [.error .rxOverflow] }) ∧
  (∀ (i : Instr) (s t : State), s.rxovf = true → i ≠ .rxclr → exec i s = .next t →
    t.rxovf = true) ∧
  (∀ (s t : State) (len : Len) (flag seq flen cs : Byte) (bits : BitVec 7), exec .decode s = .next t →
    t.responses = s.responses ++ [.decode len flag seq flen cs bits] → bits.getLsbD 5 = s.rxovf)

/-- R14: RXOVF is set only by a push onto a full buffer, which answers RX_OVERFLOW (an RXPUSH, or the
pushes of a wire row, log 3), and cleared only by RXCLR. -/
def Obligations.OverflowFlagWriters : Prop :=
  ∀ (i : Instr) (s t : State), exec i s = .next t → t.rxovf ≠ s.rxovf →
    (i = .rxclr ∧ t.rxovf = false) ∨
      (((∃ b, i = .rxpush b) ∨ (∃ seq len, i = .frameEnq seq len) ∨
          (∃ seq len, i = .frameAck seq len) ∨ (∃ seq len, i = .frameNak seq len) ∨
          (∃ flag seq len, i = .frameAny flag seq len) ∨ ∃ cs, i = .frameTrailer cs) ∧
        t.rxovf = true ∧ t.rxlen.toNat = 256 ∧
        ∃ rs, t.responses = s.responses ++ rs ∧ Response.error .rxOverflow ∈ rs)

/-- R94, R118: RXRD answers the byte of its cell below RXLEN and RANGE at or above it, and changes
nothing. -/
def Obligations.RxrdReadsCell : Prop :=
  ∀ (s : State) (i : Nat), BlockInv s →
    (i < s.rxlen.toNat →
      ∃ v, cellAt s.rxbuf i = some v ∧
        exec (.rxrd i) s = .next { s with responses := s.responses ++ [.rxrd v] }) ∧
    (s.rxlen.toNat ≤ i →
      exec (.rxrd i) s = .next { s with responses := s.responses ++ [.error .range] })

/-- R56, R92: RXLOAD of at most 256 bytes leaves exactly them in RXBUF, in order, with RXOVF clear, and
answers 0, 1, 2, … -/
def Obligations.RxloadHoldsBytes : Prop :=
  ∀ (s : State) (bs : List Byte), bs.length ≤ 256 →
    ∃ t, runOps (rxloadOps bs) s = .next t ∧ rxHolds t bs ∧ t.rxovf = false ∧ sameSender s t ∧
      t.responses = s.responses ++ .rxclr 0 ::
        (List.range bs.length).map (fun j => .rxpush (BitVec.ofNat 9 (j + 1)))

/-! ## VERIFY -/

/-- R71, R72: from two bytes up VERIFY answers whether the second-to-last byte equals the XOR of the
buffer with that byte counted as zero, and changes nothing. -/
def Obligations.VerifyComparesChecksum : Prop :=
  ∀ (s : State) (bs : List Byte), rxHolds s bs → 2 ≤ bs.length →
    exec .verify s = .next { s with responses := s.responses ++ [.verify (verdictOf bs)] }

/-- R73: below two bytes VERIFY raises Runt and changes nothing; on two bytes it answers whether they
are equal. -/
def Obligations.VerifyShortBuffers : Prop :=
  (∀ s : State, s.rxlen.toNat < 2 →
    exec .verify s = .next { s with responses := s.responses ++ [.error .runt] }) ∧
  (∀ (s : State) (x y : Byte), rxHolds s [x, y] →
    exec .verify s = .next { s with responses := s.responses ++ [.verify (x == y)] })

/-- R75: the verdict is 1 exactly when the XOR of all the bytes, the checksum as it stands among them,
is zero. -/
def Obligations.VerifyIsZeroFold : Prop :=
  ∀ (s t : State), 2 ≤ s.rxlen.toNat → exec .verify s = .next t →
    (t.responses = s.responses ++ [.verify true] ↔ xorFold .rx s.rxbuf s.rxlen.toNat = .ok 0)

/-- R76: after bits are flipped in a buffer that verifies, it verifies exactly when in each of the
eight bit positions the number of cells with that bit flipped is even. -/
def Obligations.VerifyDetectsOddFlips : Prop :=
  ∀ (s s' : State) (bs masks : List Byte), rxHolds s bs → 2 ≤ bs.length →
    masks.length = bs.length → rxHolds s' (flipped bs masks) →
    exec .verify s = .next { s with responses := s.responses ++ [.verify true] } →
    (exec .verify s' = .next { s' with responses := s'.responses ++ [.verify true] } ↔
      ∀ k, k < 8 → (masks.countP fun d => d.getLsbD k) % 2 = 0)

/-- R76 (a), (c): any change confined to one cell, a single flipped bit among them, turns the verdict
to 0. -/
def Obligations.VerifyDetectsOneChangedCell : Prop :=
  ∀ (s s' : State) (bs : List Byte) (k : Nat) (v : Byte), rxHolds s bs → 2 ≤ bs.length →
    k < bs.length → bs[k]? ≠ some v → rxHolds s' (bs.set k v) →
    exec .verify s = .next { s with responses := s.responses ++ [.verify true] } →
    exec .verify s' = .next { s' with responses := s'.responses ++ [.verify false] }

/-- R76 (d): a reordering of the cells, a swap among them, is never detected. -/
def Obligations.VerifyMissesReordering : Prop :=
  ∀ (s s' : State) (bs bs' : List Byte) (r : Bool), rxHolds s bs → 2 ≤ bs.length → rxHolds s' bs' →
    bs.Perm bs' →
    exec .verify s = .next { s with responses := s.responses ++ [.verify r] } →
    exec .verify s' = .next { s' with responses := s'.responses ++ [.verify r] }

/-- R76 (e): cells whose XOR is zero, put in or taken out at any position, change no verdict as long as
both buffers have at least two bytes. -/
def Obligations.VerifyMissesZeroRuns : Prop :=
  ∀ (s s' : State) (xs run ys : List Byte) (r : Bool), xorBytes run = 0 → 2 ≤ (xs ++ ys).length →
    rxHolds s (xs ++ ys) → rxHolds s' (xs ++ run ++ ys) →
    (exec .verify s = .next { s with responses := s.responses ++ [.verify r] } ↔
      exec .verify s' = .next { s' with responses := s'.responses ++ [.verify r] })

/-! ## DECODE -/

/-- R82, R83, R84: from six bytes up DECODE answers the bytes at offsets 1, 2, 3 and N-2, and seven
check bits, each on its own; it changes nothing. -/
def Obligations.DecodeReportsFields : Prop :=
  ∀ (s : State) (bs : List Byte), rxHolds s bs → 6 ≤ bs.length →
    ∃ flag seq flen cs bits,
      exec .decode s =
        .next { s with responses := s.responses ++ [.decode s.rxlen flag seq flen cs bits] } ∧
      bs[1]? = some flag ∧ bs[2]? = some seq ∧ bs[3]? = some flen ∧
      bs[bs.length - 2]? = some cs ∧
      (bits.getLsbD 0 = true ↔ bs[0]? = some 0x02) ∧
      (bits.getLsbD 1 = true ↔ bs[bs.length - 1]? = some 0x03) ∧
      (bits.getLsbD 2 = true ↔ flen.toNat = bs.length - 6) ∧
      (bits.getLsbD 3 = true ↔ xorBytes bs = 0) ∧
      (bits.getLsbD 4 = true ↔ flag = 0x05 ∨ flag = 0x06 ∨ flag = 0x15) ∧
      (bits.getLsbD 5 = s.rxovf) ∧
      (bits.getLsbD 6 = true ↔ bits.getLsbD 0 = true ∧ bits.getLsbD 1 = true ∧
        bits.getLsbD 2 = true ∧ bits.getLsbD 3 = true ∧ bits.getLsbD 5 = false)

/-- R81: below six bytes DECODE raises Runt and changes nothing. -/
def Obligations.DecodeRunt : Prop :=
  ∀ s : State, s.rxlen.toNat < 6 →
    exec .decode s = .next { s with responses := s.responses ++ [.error .runt] }

/-- R84: `ovf` is RXOVF; `frame_ok` is the conjunction of the other bits, and it is 1 exactly when the
buffer is byte for byte a frame of some flag, some SEQ byte and some payload of at most 250 bytes, and
nothing was dropped. -/
def Obligations.FrameOkMeansEncodableFrame : Prop :=
  ∀ (s : State) (bs : List Byte), rxHolds s bs → 6 ≤ bs.length →
    ∃ flag seq flen cs bits,
      exec .decode s =
        .next { s with responses := s.responses ++ [.decode s.rxlen flag seq flen cs bits] } ∧
      bits.getLsbD 5 = s.rxovf ∧
      bits.getLsbD 6 = (bits.getLsbD 0 && bits.getLsbD 1 && bits.getLsbD 2 && bits.getLsbD 3 &&
        !bits.getLsbD 5) ∧
      (bits.getLsbD 6 = true ↔
        s.rxovf = false ∧ ∃ f q p, p.length ≤ 250 ∧ bs = frameBytes f q p)

/-- R83 with R75: `cs_ok` is the verdict VERIFY gives. -/
def Obligations.DecodeChecksumBitIsVerdict : Prop :=
  ∀ (s t u : State) (r : Bool) (len : Len) (flag seq flen cs : Byte) (bits : BitVec 7),
    exec .verify s = .next t → t.responses = s.responses ++ [.verify r] →
    exec .decode s = .next u →
    u.responses = s.responses ++ [.decode len flag seq flen cs bits] → bits.getLsbD 3 = r

/-- R144 (vector VD16): two good frames end to end, with no RXCLR between, verify as one; of the bits
`stx_ok`, `etx_ok`, `len_ok` and `cs_ok` only `len_ok` tells. -/
def Obligations.TwoFramesVerifyAsOne : Prop :=
  ∀ (s : State) (f q f' q' : Byte) (p p' : List Byte), p.length ≤ 250 → p'.length ≤ 250 →
    rxHolds s (frameBytes f q p ++ frameBytes f' q' p') →
    exec .verify s = .next { s with responses := s.responses ++ [.verify true] } ∧
    ∃ flag seq flen cs bits,
      exec .decode s =
        .next { s with responses := s.responses ++ [.decode s.rxlen flag seq flen cs bits] } ∧
      bits.getLsbD 0 = true ∧ bits.getLsbD 1 = true ∧ bits.getLsbD 2 = false ∧
      bits.getLsbD 3 = true

/-- R86 (the source's property V2): a frame ENCODE built and HOST moved unchanged into RXBUF verifies;
DECODE gives back its flag, SEQ and length with every check bit good; and the payload stands at
offsets 4 up. -/
def Obligations.LoopbackRoundTrip : Prop :=
  ∀ (s : State) (flag : Byte) (p : List Byte), p.length ≤ 250 →
    ∃ a b cs bits, encodeWith flag p s = .next a ∧
      a.responses = s.responses ++ [.encode (BitVec.ofNat 9 (p.length + 6))] ∧
      loopback (p.length + 6) a = .next b ∧
      exec .verify b = .next { b with responses := b.responses ++ [.verify true] } ∧
      exec .decode b = .next { b with responses := b.responses ++
        [.decode (BitVec.ofNat 9 (p.length + 6)) flag s.seqctr (BitVec.ofNat 8 p.length) cs bits] } ∧
      bits.getLsbD 0 = true ∧ bits.getLsbD 1 = true ∧ bits.getLsbD 2 = true ∧
      bits.getLsbD 3 = true ∧ bits.getLsbD 5 = false ∧ bits.getLsbD 6 = true ∧
      (∀ j, j < p.length → cellAt b.rxbuf (4 + j) = p[j]?)

/-! ## The wire-frame rows: their meaning as pushes is the model's (log 3) -/

/-- Log 3 with R40, R42, R45, R28: in every state a wire row is the run of the RXPUSHes of its bytes in
frame order, on a full or nearly full buffer too. -/
def Obligations.WireRowsArePushes : Prop :=
  ∀ (s : State) (flag seq len cs : Byte),
    exec (.frameEnq seq len) s =
      runOps [.rxpush 0x02, .rxpush 0x05, .rxpush seq, .rxpush len] s ∧
    exec (.frameAck seq len) s =
      runOps [.rxpush 0x02, .rxpush 0x06, .rxpush seq, .rxpush len] s ∧
    exec (.frameNak seq len) s =
      runOps [.rxpush 0x02, .rxpush 0x15, .rxpush seq, .rxpush len] s ∧
    exec (.frameAny flag seq len) s =
      runOps [.rxpush 0x02, .rxpush flag, .rxpush seq, .rxpush len] s ∧
    exec (.frameTrailer cs) s = runOps [.rxpush cs, .rxpush 0x03] s

/-- Log 3 with R40, R42, R92: with room for four bytes a header row (FRAME.ENQ, FRAME.ACK, FRAME.NAK,
FRAME.ANY) completes: its bytes stand in the four cells from RXLEN up, RXLEN grows by four, four
responses are given, and nothing else changes. -/
def Obligations.HeaderRowsComplete : Prop :=
  ∀ (s : State) (i : Instr) (flag seq len : Byte), s.rxlen.toNat + 4 ≤ 256 →
    ((i = .frameEnq seq len ∧ flag = 0x05) ∨ (i = .frameAck seq len ∧ flag = 0x06) ∨
      (i = .frameNak seq len ∧ flag = 0x15) ∨ i = .frameAny flag seq len) →
    ∃ t, exec i s = .next t ∧
      t = { s with
        rxbuf := t.rxbuf
        rxlen := s.rxlen + 4
        responses := s.responses ++ [.rxpush (s.rxlen + 1), .rxpush (s.rxlen + 2),
          .rxpush (s.rxlen + 3), .rxpush (s.rxlen + 4)] } ∧
      cellAt t.rxbuf s.rxlen.toNat = some 0x02 ∧
      cellAt t.rxbuf (s.rxlen.toNat + 1) = some flag ∧
      cellAt t.rxbuf (s.rxlen.toNat + 2) = some seq ∧
      cellAt t.rxbuf (s.rxlen.toNat + 3) = some len ∧
      (∀ a, (a < s.rxlen.toNat ∨ s.rxlen.toNat + 4 ≤ a) → cellAt t.rxbuf a = cellAt s.rxbuf a)

/-- Log 3 with R40, R45, R92: with room for two bytes FRAME.TRAILER completes in the same way. -/
def Obligations.TrailerRowCompletes : Prop :=
  ∀ (s : State) (cs : Byte), s.rxlen.toNat + 2 ≤ 256 →
    ∃ t, exec (.frameTrailer cs) s = .next t ∧
      t = { s with
        rxbuf := t.rxbuf
        rxlen := s.rxlen + 2
        responses := s.responses ++ [.rxpush (s.rxlen + 1), .rxpush (s.rxlen + 2)] } ∧
      cellAt t.rxbuf s.rxlen.toNat = some cs ∧
      cellAt t.rxbuf (s.rxlen.toNat + 1) = some 0x03 ∧
      (∀ a, (a < s.rxlen.toNat ∨ s.rxlen.toNat + 2 ≤ a) → cellAt t.rxbuf a = cellAt s.rxbuf a)

/-- Log 3 with R84: a frame that arrives whole after an RXCLR (its header row, its payload pushed, its
trailer row) is reported with its own fields, its checksum among them, and `frame_ok`. -/
def Obligations.ArrivedFrameIsReportedGood : Prop :=
  ∀ (s : State) (flag seq : Byte) (p : List Byte), p.length ≤ 250 →
    ∃ t bits,
      runOps ([.rxclr, .frameAny flag seq (BitVec.ofNat 8 p.length)] ++ p.map .rxpush ++
        [.frameTrailer (closedChecksum flag seq p)]) s = .next t ∧
      exec .decode t = .next { t with responses := t.responses ++
        [.decode (BitVec.ofNat 9 (p.length + 6)) flag seq (BitVec.ofNat 8 p.length)
          (closedChecksum flag seq p) bits] } ∧
      bits.getLsbD 6 = true

/-! ## Rules over all the operations -/

/-- R32: TXRD, RXRD, VERIFY and DECODE change no state, and issued twice give the same response
twice. -/
def Obligations.ReadsHaveNoSideEffects : Prop :=
  ∀ (i : Instr) (s t : State), isReader i = true → exec i s = .next t →
    ∃ r, t = { s with responses := s.responses ++ [r] } ∧
      exec i t = .next { t with responses := t.responses ++ [r] }

/-- R26, R129: the receiver's operations touch nothing of the transmit side and the sender's nothing of
the receive side. That the wire rows are among the receiver's operations is the model's choice (log 3);
that no operation touches HOST's list, the mark of the first reset or the counter of free values is
about fields of the model's own (log 1, 12, 13). -/
def Obligations.SidesTouchDisjointState : Prop :=
  ∀ (i : Instr) (s t : State), exec i s = .next t →
    (isReceiver i = true → sameSender s t) ∧ (isSender i = true → sameReceiver s t) ∧
    t.host = s.host ∧ t.wasReset = s.wasReset ∧ t.draws = s.draws

/-- R129: a sender's and a receiver's operation in either order reach the same state and each gives the
same responses as if it ran first. That the wire rows are among the receiver's is the model's (log 3). -/
def Obligations.SenderAndReceiverCommute : Prop :=
  ∀ (i j : Instr) (s a b : State), isSender i = true → isReceiver j = true →
    exec i s = .next a → exec j s = .next b →
    ∃ c d ri rj, exec j a = .next c ∧ exec i b = .next d ∧
      sameSender c d ∧ sameReceiver c d ∧ c.host = d.host ∧ c.wasReset = d.wasReset ∧
      c.draws = d.draws ∧
      a.responses = s.responses ++ ri ∧ d.responses = b.responses ++ ri ∧
      b.responses = s.responses ++ rj ∧ c.responses = a.responses ++ rj

/-- R104: no operation but an ENCODE with `n` at most 250 takes a payload byte. -/
def Obligations.OnlyEncodeTakesPayload : Prop :=
  ∀ (i : Instr) (s t : State), exec i s = .next t →
    (∀ flag n, i = .encode flag n → 250 < n) → t.payload = s.payload

/-- R115, R116: an operation that answers an error changes nothing but what the raising rule lists:
PAYLOAD_TOO_LARGE sets TXLEN to 0, RX_OVERFLOW sets RXOVF. -/
def Obligations.ErrorsChangeOnlyWhatTheyList : Prop :=
  ∀ (i : Instr) (s t : State) (e : ErrorKind), exec i s = .next t →
    t.responses = s.responses ++ [.error e] →
    t = { s with
      txlen := if e = .payloadTooLarge then 0 else s.txlen
      rxovf := if e = .rxOverflow then true else s.rxovf
      responses := s.responses ++ [.error e] }

/-- R116, R124: each operation has at most one error and only under its condition. -/
def Obligations.ErrorsOnlyUnderTheirCondition : Prop :=
  ∀ (i : Instr) (s t : State) (e : ErrorKind), exec i s = .next t →
    t.responses = s.responses ++ [.error e] →
    (i = .illegal ∧ e = .illegalOp) ∨
    (∃ flag n, i = .encode flag n ∧ e = .payloadTooLarge ∧ 250 < n) ∨
    (∃ n, i = .txrd n ∧ e = .range ∧ s.txlen.toNat ≤ n) ∨
    (∃ n, i = .rxrd n ∧ e = .range ∧ s.rxlen.toNat ≤ n) ∨
    (∃ b, i = .rxpush b ∧ e = .rxOverflow ∧ s.rxlen.toNat = 256) ∨
    (i = .verify ∧ e = .runt ∧ s.rxlen.toNat < 2) ∨
    (i = .decode ∧ e = .runt ∧ s.rxlen.toNat < 6)

/-- R49, R105, R116: the pins of a response cycle carry the status and the listed fields, whatever the
unspecified pins carry (log 13); a step without a response has one cycle with `rsp_valid` low. -/
def Obligations.PinsCarryListedFields : Prop :=
  (∀ s : State, s.responses = [] → ∃ p, pinCycles s = [p] ∧ p.rspValid = false) ∧
  ∀ (s : State) (r : Response), s.responses = [r] →
    ∃ p, pinCycles s = [p] ∧ p.rspValid = true ∧ p.rspStatus = statusCode r ∧
      (∀ len, r = .encode len ∨ r = .rxclr len ∨ r = .rxpush len →
        p.rspStatus = 0 ∧ p.rspLen = len) ∧
      (∀ data, r = .txrd data ∨ r = .rxrd data → p.rspStatus = 0 ∧ p.rspData = data) ∧
      (∀ ok, r = .verify ok → p.rspStatus = 0 ∧ p.rspOk = ok) ∧
      (∀ len flag seq flen cs bits, r = .decode len flag seq flen cs bits →
        p.rspStatus = 0 ∧ p.rspLen = len ∧ p.decFlag = flag ∧ p.decSeq = seq ∧ p.decLen = flen ∧
          p.decCs = cs ∧ p.decBits = bits) ∧
      (r = .error .payloadTooLarge → p.rspStatus = 1) ∧ (r = .error .range → p.rspStatus = 2) ∧
      (r = .error .runt → p.rspStatus = 3) ∧ (r = .error .rxOverflow → p.rspStatus = 4) ∧
      (r = .error .illegalOp → p.rspStatus = 5)
end

