-- ==== Sys2Proof/Laws/Cells.lean ====
section
/-! SUPPORT. The laws of buffers: a cell reads as last written, a write leaves every other cell alone
and keeps the canonical form; filling cells; the XOR fold of written cells. -/

namespace Sys2Proof.Machine

/-! ## One cell -/

@[simp] theorem cellAt_setCell_same (m : Buffer) (a : Nat) (b : Byte) :
    cellAt (setCell m a b) a = some b := by
  induction m with
  | nil => simp [setCell, cellAt]
  | cons kv m ih =>
    obtain ⟨k, v⟩ := kv
    simp only [setCell]
    split
    · simp [cellAt]
    · split
      · simp [cellAt, *]
      · simp [cellAt, *]

theorem cellAt_setCell_other (m : Buffer) {a c : Nat} (b : Byte) (h : c ≠ a) :
    cellAt (setCell m a b) c = cellAt m c := by
  induction m with
  | nil => simp [setCell, cellAt, h]
  | cons kv m ih =>
    obtain ⟨k, v⟩ := kv
    simp only [setCell]
    split
    · simp [cellAt, h]
    · split
      · next hk => simp [cellAt, ← hk, h]
      · simp [cellAt, ih]

theorem cellAt_setCell (m : Buffer) (a c : Nat) (b : Byte) :
    cellAt (setCell m a b) c = if c = a then some b else cellAt m c := by
  split
  · next h => rw [h, cellAt_setCell_same]
  · next h => exact cellAt_setCell_other m b h

/-- Lowering the bound keeps the form. -/
theorem risingFrom_some_of_head {lo : Nat} {k : Nat} {v : Byte} {m : Buffer}
    (h : risingFrom (some lo) ((k, v) :: m) = true) : risingFrom (some k) m = true := by
  simp [risingFrom] at h
  exact h.2

theorem risingFrom_setCell {lo a : Nat} {m : Buffer} (b : Byte) (h : risingFrom (some lo) m = true)
    (hlo : lo < a) (ha : a < Config.bufSize) : risingFrom (some lo) (setCell m a b) = true := by
  induction m generalizing lo with
  | nil => simp [setCell, risingFrom, hlo, ha]
  | cons kv m ih =>
    obtain ⟨k, v⟩ := kv
    simp only [risingFrom, Bool.and_eq_true, decide_eq_true_eq] at h
    simp only [setCell]
    split
    · next hk => simp [risingFrom, hlo, ha, hk, h]
    · split
      · simp [risingFrom, h]
      · next h1 h2 =>
        have : k < a := by omega
        simp [risingFrom, h, ih h.2 this]

/-- A write to a cell that exists keeps the canonical form. -/
theorem bufferWf_setCell {m : Buffer} {a : Nat} (b : Byte) (h : bufferWf m = true)
    (ha : a < Config.bufSize) : bufferWf (setCell m a b) = true := by
  unfold bufferWf at *
  cases m with
  | nil => simp [setCell, risingFrom, ha]
  | cons kv m =>
    obtain ⟨k, v⟩ := kv
    simp only [risingFrom, Bool.and_eq_true, decide_eq_true_eq] at h
    simp only [setCell]
    split
    · next hk => simp [risingFrom, ha, hk, h]
    · split
      · simp [risingFrom, h]
      · next h1 h2 =>
        have : k < a := by omega
        simp [risingFrom, h, risingFrom_setCell b h.2 this ha]

theorem cellAt_none_of_rising {lo a : Nat} {m : Buffer} (h : risingFrom (some lo) m = true)
    (ha : a ≤ lo) : cellAt m a = none := by
  induction m generalizing lo with
  | nil => rfl
  | cons kv m ih =>
    obtain ⟨k, v⟩ := kv
    simp only [risingFrom, Bool.and_eq_true, decide_eq_true_eq] at h
    have hk : a ≠ k := by omega
    simp [cellAt, hk, ih h.2 (by omega)]

/-- Two buffers in canonical form whose cells all read the same are equal. -/
theorem rising_ext {lo : Nat} {m m' : Buffer} (h : risingFrom (some lo) m = true)
    (h' : risingFrom (some lo) m' = true) (e : ∀ a, cellAt m a = cellAt m' a) : m = m' := by
  induction m generalizing lo m' with
  | nil =>
    cases m' with
    | nil => rfl
    | cons kv m' =>
      have := e kv.1
      simp [cellAt] at this
  | cons kv m ih =>
    obtain ⟨k, v⟩ := kv
    cases m' with
    | nil =>
      have := e k
      simp [cellAt] at this
    | cons kv' m' =>
      obtain ⟨k', v'⟩ := kv'
      simp only [risingFrom, Bool.and_eq_true, decide_eq_true_eq] at h h'
      have hkk : k = k' := by
        by_contra hne
        rcases Nat.lt_or_gt_of_ne hne with hlt | hlt
        · have := e k
          simp [cellAt, hne, cellAt_none_of_rising h'.2 (Nat.le_of_lt hlt)] at this
        · have hne' : k' ≠ k := fun q => hne q.symm
          have := e k'
          simp [cellAt, hne', cellAt_none_of_rising h.2 (Nat.le_of_lt hlt)] at this
      subst hkk
      have hv : v = v' := by
        have := e k
        simpa [cellAt] using this
      subst hv
      have : m = m' := by
        refine ih h.2 h'.2 fun a => ?_
        by_cases ha : a = k
        · subst ha
          rw [cellAt_none_of_rising h.2 (Nat.le_refl a), cellAt_none_of_rising h'.2 (Nat.le_refl a)]
        · have := e a
          simpa [cellAt, ha] using this
      rw [this]

/-! ## MemRead and MemWrite -/

/-- A read of a written cell gives its byte. -/
theorem readCell_of_cellAt {b : BufName} {m : Buffer} {i : Nat} {v : Byte} (hi : i < Config.bufSize)
    (h : cellAt m i = some v) : readCell b m i = .ok v := by
  have : ¬ Config.bufSize ≤ i := by omega
  simp [readCell, this, h]

/-- A read that gives a byte is of a written cell below 256. -/
theorem readCell_eq_ok {b : BufName} {m : Buffer} {i : Nat} {v : Byte}
    (h : readCell b m i = .ok v) : i < Config.bufSize ∧ cellAt m i = some v := by
  unfold readCell at h
  split at h
  · cases h
  · next hi =>
    split at h
    · next w hw =>
      cases h
      exact ⟨by omega, hw⟩
    · cases h

theorem readCell_isOk {b : BufName} {m : Buffer} {i : Nat} (hi : i < Config.bufSize)
    (h : (cellAt m i).isSome) : ∃ v, readCell b m i = .ok v := by
  obtain ⟨v, hv⟩ := Option.isSome_iff_exists.mp h
  exact ⟨v, readCell_of_cellAt hi hv⟩

theorem writeCell_of_lt {b : BufName} {m : Buffer} {i : Nat} (v : Byte) (hi : i < Config.bufSize) :
    writeCell b m i v = .ok (setCell m i v) := by
  have : ¬ Config.bufSize ≤ i := by omega
  simp [writeCell, this]

theorem writeCell_eq_ok {b : BufName} {m m' : Buffer} {i : Nat} {v : Byte}
    (h : writeCell b m i v = .ok m') : i < Config.bufSize ∧ m' = setCell m i v := by
  unfold writeCell at h
  split at h
  · cases h
  · cases h
    exact ⟨by omega, rfl⟩

/-! ## Filling -/

theorem cellAt_fillCells_below (bs : List Byte) {m : Buffer} {a c : Nat} (h : c < a) :
    cellAt (fillCells m a bs) c = cellAt m c := by
  induction bs generalizing m a with
  | nil => rfl
  | cons b bs ih =>
    rw [fillCells, ih (by omega), cellAt_setCell_other m b (by omega)]

theorem cellAt_fillCells_above (bs : List Byte) {m : Buffer} {a c : Nat} (h : a + bs.length ≤ c) :
    cellAt (fillCells m a bs) c = cellAt m c := by
  induction bs generalizing m a with
  | nil => rfl
  | cons b bs ih =>
    simp only [List.length_cons] at h
    rw [fillCells, ih (by omega), cellAt_setCell_other m b (by omega)]

/-- A filled cell reads as the byte put there. -/
theorem cellAt_fillCells_inside (bs : List Byte) {m : Buffer} {a j : Nat} (h : j < bs.length) :
    cellAt (fillCells m a bs) (a + j) = bs[j]? := by
  induction bs generalizing m a j with
  | nil => simp at h
  | cons b bs ih =>
    rw [fillCells]
    cases j with
    | zero => simp [cellAt_fillCells_below bs (Nat.lt_succ_self a)]
    | succ j =>
      have : a + (j + 1) = (a + 1) + j := by omega
      rw [this, ih (by simpa using h)]
      simp

theorem bufferWf_fillCells (bs : List Byte) {m : Buffer} {a : Nat} (h : bufferWf m = true)
    (ha : a + bs.length ≤ Config.bufSize) : bufferWf (fillCells m a bs) = true := by
  induction bs generalizing m a with
  | nil => exact h
  | cons b bs ih =>
    simp only [List.length_cons] at ha
    exact ih (bufferWf_setCell b h (by omega)) (by omega)

/-! ## The XOR fold -/

theorem xorBytes_append (xs ys : List Byte) : xorBytes (xs ++ ys) = xorBytes xs ^^^ xorBytes ys := by
  induction xs with
  | nil => simp [xorBytes]
  | cons x xs ih => simp [xorBytes, ih, BitVec.xor_assoc]

/-- The fold of known bytes is their XOR (R70, R74). -/
theorem foldCells_of_known (f : Nat → Except Fault Byte) (g : Nat → Byte) (n : Nat)
    (h : ∀ i, i < n → f i = .ok (g i)) :
    foldCells f n = .ok (xorBytes ((List.range n).map g)) := by
  induction n with
  | zero => rfl
  | succ n ih =>
    rw [foldCells, ih fun i hi => h i (by omega), h n (by omega)]
    simp [List.range_succ, xorBytes_append, xorBytes]

theorem foldCells_congr {f g : Nat → Except Fault Byte} {n : Nat} (h : ∀ i, i < n → f i = g i) :
    foldCells f n = foldCells g n := by
  induction n with
  | zero => rfl
  | succ n ih => rw [foldCells, foldCells, ih fun i hi => h i (by omega), h n (by omega)]

/-- A fold whose every read succeeds gives a byte. -/
theorem foldCells_total {f : Nat → Except Fault Byte} {n : Nat} (h : ∀ i, i < n → ∃ v, f i = .ok v) :
    ∃ c, foldCells f n = .ok c := by
  induction n with
  | zero => exact ⟨0, rfl⟩
  | succ n ih =>
    obtain ⟨c, hc⟩ := ih fun i hi => h i (by omega)
    obtain ⟨v, hv⟩ := h n (by omega)
    exact ⟨c ^^^ v, by rw [foldCells, hc, hv]⟩

/-- A fold that succeeds read every cell. -/
theorem foldCells_eq_ok {f : Nat → Except Fault Byte} {n : Nat} {c : Byte}
    (h : foldCells f n = .ok c) : ∀ i, i < n → ∃ v, f i = .ok v := by
  induction n generalizing c with
  | zero => intro i hi; omega
  | succ n ih =>
    rw [foldCells] at h
    split at h
    · cases h
    · next c' hc =>
      split at h
      · cases h
      · next v hv =>
        intro i hi
        rcases Nat.lt_succ_iff_lt_or_eq.mp hi with hlt | rfl
        · exact ih hc i hlt
        · exact ⟨v, hv⟩

/-- The fold of the first cells of a buffer that hold the bytes listed. -/
theorem xorFold_of_holds {b : BufName} {m : Buffer} {bs : List Byte} (hlen : bs.length ≤ Config.bufSize)
    (h : holdsFrom m bs) : xorFold b m bs.length = .ok (xorBytes bs) := by
  have key : ∀ i, i < bs.length → readCell b m i = .ok (bs.getD i 0) := by
    intro i hi
    refine readCell_of_cellAt (by omega) ?_
    rw [h i hi, List.getD_eq_getElem?_getD, List.getElem?_eq_getElem hi]
    rfl
  rw [xorFold, foldCells_of_known _ (fun i => bs.getD i 0) _ key]
  congr 2
  refine List.ext_getElem (by simp) fun i h1 h2 => ?_
  simp [List.getD_eq_getElem?_getD, List.getElem?_eq_getElem h2]

/-- The fold reads only the cells below `n`. -/
theorem xorFold_congr {b : BufName} {m m' : Buffer} {n : Nat}
    (h : ∀ i, i < n → cellAt m i = cellAt m' i) : xorFold b m n = xorFold b m' n := by
  refine foldCells_congr fun i hi => ?_
  simp [readCell, h i hi]

end Sys2Proof.Machine
end

