-- ==== Sys2Proof/Laws/Fields.lean ====
section
/-! SUPPORT. The fields of the three word formats as numbers, and that packing fields and taking them
out again gives them back. -/

namespace Sys2Proof

/-! ## Fields as numbers -/

theorem toNat_append_eq {w v : Nat} (x : BitVec w) (y : BitVec v) :
    (x ++ y).toNat = x.toNat * 2 ^ v + y.toNat := by
  rw [BitVec.toNat_append, ← Nat.shiftLeft_add_eq_or_of_lt y.isLt, Nat.shiftLeft_eq]

theorem opCode_toNat {lenw : Nat} (w : OpWord lenw) :
    (opCode w).toNat = w.toNat / 2 ^ lenw / 2 ^ 8 % 8 := by
  rw [opCode, BitVec.extractLsb'_toNat, Nat.shiftRight_eq_div_pow, Nat.pow_add, Nat.div_div_eq_div_mul]

theorem opArg8_toNat {lenw : Nat} (w : OpWord lenw) :
    (opArg8 w).toNat = w.toNat / 2 ^ lenw % 256 := by
  rw [opArg8, BitVec.extractLsb'_toNat, Nat.shiftRight_eq_div_pow]

theorem opArg16_toNat {lenw : Nat} (w : OpWord lenw) : (opArg16 w).toNat = w.toNat % 2 ^ lenw := by
  rw [opArg16, BitVec.extractLsb'_toNat, Nat.shiftRight_eq_div_pow, Nat.pow_zero, Nat.div_one]

theorem packOp_toNat {lenw : Nat} (c : BitVec 3) (a : Byte) (n : BitVec lenw) :
    (packOp c a n).toNat = (c.toNat * 2 ^ 8 + a.toNat) * 2 ^ lenw + n.toNat := by
  have h : (packOp c a n).toNat = (c ++ a ++ n).toNat := rfl
  rw [h, toNat_append_eq, toNat_append_eq]

/-- The fields above the number operand. -/
theorem packOp_div {lenw : Nat} (c : BitVec 3) (a : Byte) (n : BitVec lenw) :
    (packOp c a n).toNat / 2 ^ lenw = c.toNat * 2 ^ 8 + a.toNat := by
  rw [packOp_toNat, Nat.mul_comm, Nat.mul_add_div (Nat.two_pow_pos lenw), Nat.div_eq_of_lt n.isLt,
    Nat.add_zero]

/-- The number operand below them. -/
theorem packOp_mod {lenw : Nat} (c : BitVec 3) (a : Byte) (n : BitVec lenw) :
    (packOp c a n).toNat % 2 ^ lenw = n.toNat := by
  rw [packOp_toNat, Nat.mul_comm, Nat.mul_add_mod, Nat.mod_eq_of_lt n.isLt]

theorem headerByte_toNat (w : BitVec 32) (j : Nat) :
    (headerByte w j).toNat = w.toNat / 2 ^ (8 * (3 - j)) % 256 := by
  rw [headerByte, BitVec.extractLsb'_toNat, Nat.shiftRight_eq_div_pow]

theorem packHeader_toNat (b0 b1 b2 b3 : Byte) :
    (packHeader b0 b1 b2 b3).toNat =
      ((b0.toNat * 2 ^ 8 + b1.toNat) * 2 ^ 8 + b2.toNat) * 2 ^ 8 + b3.toNat := by
  have h : (packHeader b0 b1 b2 b3).toNat = (b0 ++ b1 ++ b2 ++ b3).toNat := rfl
  rw [h, toNat_append_eq, toNat_append_eq, toNat_append_eq]

theorem trailerChecksum_toNat (w : BitVec 16) : (trailerChecksum w).toNat = w.toNat / 2 ^ 8 % 256 := by
  rw [trailerChecksum, BitVec.extractLsb'_toNat, Nat.shiftRight_eq_div_pow]

theorem trailerEtx_toNat (w : BitVec 16) : (trailerEtx w).toNat = w.toNat % 256 := by
  rw [trailerEtx, BitVec.extractLsb'_toNat, Nat.shiftRight_eq_div_pow, Nat.pow_zero, Nat.div_one]

theorem packTrailer_toNat (c e : Byte) : (packTrailer c e).toNat = c.toNat * 2 ^ 8 + e.toNat := by
  have h : (packTrailer c e).toNat = (c ++ e).toNat := rfl
  rw [h, toNat_append_eq]

/-! ## Taking out what was packed -/

@[simp] theorem opCode_packOp {lenw : Nat} (c : BitVec 3) (a : Byte) (n : BitVec lenw) :
    opCode (packOp c a n) = c := by
  apply BitVec.eq_of_toNat_eq
  rw [opCode_toNat, packOp_div]
  omega

@[simp] theorem opArg8_packOp {lenw : Nat} (c : BitVec 3) (a : Byte) (n : BitVec lenw) :
    opArg8 (packOp c a n) = a := by
  apply BitVec.eq_of_toNat_eq
  rw [opArg8_toNat, packOp_div]
  omega

@[simp] theorem opArg16_packOp {lenw : Nat} (c : BitVec 3) (a : Byte) (n : BitVec lenw) :
    opArg16 (packOp c a n) = n := by
  apply BitVec.eq_of_toNat_eq
  rw [opArg16_toNat, packOp_mod]

@[simp] theorem headerByte_packHeader_0 (b0 b1 b2 b3 : Byte) :
    headerByte (packHeader b0 b1 b2 b3) 0 = b0 := by
  apply BitVec.eq_of_toNat_eq
  rw [headerByte_toNat, packHeader_toNat]
  omega

@[simp] theorem headerByte_packHeader_1 (b0 b1 b2 b3 : Byte) :
    headerByte (packHeader b0 b1 b2 b3) 1 = b1 := by
  apply BitVec.eq_of_toNat_eq
  rw [headerByte_toNat, packHeader_toNat]
  omega

@[simp] theorem headerByte_packHeader_2 (b0 b1 b2 b3 : Byte) :
    headerByte (packHeader b0 b1 b2 b3) 2 = b2 := by
  apply BitVec.eq_of_toNat_eq
  rw [headerByte_toNat, packHeader_toNat]
  omega

@[simp] theorem headerByte_packHeader_3 (b0 b1 b2 b3 : Byte) :
    headerByte (packHeader b0 b1 b2 b3) 3 = b3 := by
  apply BitVec.eq_of_toNat_eq
  rw [headerByte_toNat, packHeader_toNat]
  omega

@[simp] theorem trailerChecksum_packTrailer (c e : Byte) : trailerChecksum (packTrailer c e) = c := by
  apply BitVec.eq_of_toNat_eq
  rw [trailerChecksum_toNat, packTrailer_toNat]
  omega

@[simp] theorem trailerEtx_packTrailer (c e : Byte) : trailerEtx (packTrailer c e) = e := by
  apply BitVec.eq_of_toNat_eq
  rw [trailerEtx_toNat, packTrailer_toNat]
  omega

/-- Every operation word is its three fields packed. -/
theorem packOp_fields {lenw : Nat} (w : OpWord lenw) : packOp (opCode w) (opArg8 w) (opArg16 w) = w := by
  apply BitVec.eq_of_toNat_eq
  have hw : w.toNat < 2 ^ lenw * 2 ^ 11 := by
    have hp : (2 : Nat) ^ (3 + 8 + lenw) = 2 ^ lenw * 2 ^ 11 := by rw [Nat.add_comm, Nat.pow_add]
    exact hp ▸ w.isLt
  have hd : w.toNat / 2 ^ lenw < 2 ^ 11 := Nat.div_lt_of_lt_mul hw
  have hf : (w.toNat / 2 ^ lenw / 2 ^ 8 % 8) * 2 ^ 8 + w.toNat / 2 ^ lenw % 256 = w.toNat / 2 ^ lenw := by
    generalize w.toNat / 2 ^ lenw = d at hd
    omega
  rw [packOp_toNat, opCode_toNat, opArg8_toNat, opArg16_toNat, hf, Nat.mul_comm]
  exact Nat.div_add_mod _ _

/-- Every header word is its four bytes packed. -/
theorem packHeader_bytes (w : BitVec 32) :
    packHeader (headerByte w 0) (headerByte w 1) (headerByte w 2) (headerByte w 3) = w := by
  apply BitVec.eq_of_toNat_eq
  rw [packHeader_toNat, headerByte_toNat, headerByte_toNat, headerByte_toNat, headerByte_toNat]
  omega

/-- Every trailer word is its two bytes packed. -/
theorem packTrailer_bytes (w : BitVec 16) : packTrailer (trailerChecksum w) (trailerEtx w) = w := by
  apply BitVec.eq_of_toNat_eq
  rw [packTrailer_toNat, trailerChecksum_toNat, trailerEtx_toNat]
  omega

/-- The eight op codes. -/
theorem opCode_cases (c : BitVec 3) :
    c = 0 ∨ c = 1 ∨ c = 2 ∨ c = 3 ∨ c = 4 ∨ c = 5 ∨ c = 6 ∨ c = 7 := by
  revert c
  decide

end Sys2Proof
end

