-- ==== Sys2Proof/Laws/State.lean ====
section
/-! SUPPORT. One lemma per field per named update of State, so that no later proof unfolds a record
update. -/

namespace Sys2Proof.Machine

/-! ## answer -/

@[simp] theorem answer_seqctr (r : Response) (s : State) : (answer r s).seqctr = s.seqctr := rfl
@[simp] theorem answer_txlen (r : Response) (s : State) : (answer r s).txlen = s.txlen := rfl
@[simp] theorem answer_rxlen (r : Response) (s : State) : (answer r s).rxlen = s.rxlen := rfl
@[simp] theorem answer_rxovf (r : Response) (s : State) : (answer r s).rxovf = s.rxovf := rfl
@[simp] theorem answer_txbuf (r : Response) (s : State) : (answer r s).txbuf = s.txbuf := rfl
@[simp] theorem answer_rxbuf (r : Response) (s : State) : (answer r s).rxbuf = s.rxbuf := rfl
@[simp] theorem answer_flight (r : Response) (s : State) : (answer r s).flight = s.flight := rfl
@[simp] theorem answer_wasReset (r : Response) (s : State) : (answer r s).wasReset = s.wasReset := rfl
@[simp] theorem answer_host (r : Response) (s : State) : (answer r s).host = s.host := rfl
@[simp] theorem answer_payload (r : Response) (s : State) : (answer r s).payload = s.payload := rfl
@[simp] theorem answer_responses (r : Response) (s : State) : (answer r s).responses = s.responses ++ [r] := rfl
@[simp] theorem answer_draws (r : Response) (s : State) : (answer r s).draws = s.draws := rfl

/-! ## freshStep -/

@[simp] theorem freshStep_seqctr (s : State) : (freshStep s).seqctr = s.seqctr := rfl
@[simp] theorem freshStep_txlen (s : State) : (freshStep s).txlen = s.txlen := rfl
@[simp] theorem freshStep_rxlen (s : State) : (freshStep s).rxlen = s.rxlen := rfl
@[simp] theorem freshStep_rxovf (s : State) : (freshStep s).rxovf = s.rxovf := rfl
@[simp] theorem freshStep_txbuf (s : State) : (freshStep s).txbuf = s.txbuf := rfl
@[simp] theorem freshStep_rxbuf (s : State) : (freshStep s).rxbuf = s.rxbuf := rfl
@[simp] theorem freshStep_flight (s : State) : (freshStep s).flight = s.flight := rfl
@[simp] theorem freshStep_wasReset (s : State) : (freshStep s).wasReset = s.wasReset := rfl
@[simp] theorem freshStep_host (s : State) : (freshStep s).host = s.host := rfl
@[simp] theorem freshStep_payload (s : State) : (freshStep s).payload = s.payload := rfl
@[simp] theorem freshStep_responses (s : State) : (freshStep s).responses = [] := rfl
@[simp] theorem freshStep_draws (s : State) : (freshStep s).draws = s.draws + 1 := rfl

/-! ## resetBlock -/

@[simp] theorem resetBlock_seqctr (s : State) : (resetBlock s).seqctr = 0 := rfl
@[simp] theorem resetBlock_txlen (s : State) : (resetBlock s).txlen = 0 := rfl
@[simp] theorem resetBlock_rxlen (s : State) : (resetBlock s).rxlen = 0 := rfl
@[simp] theorem resetBlock_rxovf (s : State) : (resetBlock s).rxovf = false := rfl
@[simp] theorem resetBlock_txbuf (s : State) : (resetBlock s).txbuf = [] := rfl
@[simp] theorem resetBlock_rxbuf (s : State) : (resetBlock s).rxbuf = [] := rfl
@[simp] theorem resetBlock_flight (s : State) : (resetBlock s).flight = none := rfl
@[simp] theorem resetBlock_wasReset (s : State) : (resetBlock s).wasReset = true := rfl
@[simp] theorem resetBlock_host (s : State) : (resetBlock s).host = s.host := rfl
@[simp] theorem resetBlock_payload (s : State) : (resetBlock s).payload = s.payload := rfl
@[simp] theorem resetBlock_responses (s : State) : (resetBlock s).responses = s.responses := rfl
@[simp] theorem resetBlock_draws (s : State) : (resetBlock s).draws = s.draws := rfl

/-! ## Responding, raising and going on -/

@[simp] theorem respond_eq (r : Response) (s : State) : respond r s = .next (answer r s) := rfl
@[simp] theorem raise_eq (e : ErrorKind) (s : State) : raise e s = .next (answer (.error e) s) := rfl
@[simp] theorem withValue_ok {α : Type} (v : α) (k : α → Result) : withValue (.ok v) k = k v := rfl
@[simp] theorem withValue_error {α : Type} (f : Fault) (k : α → Result) :
    withValue (.error f) k = .fault f := rfl
@[simp] theorem andThen_next (s : State) (k : State → Result) : andThen (.next s) k = k s := rfl
@[simp] theorem andThen_fault (f : Fault) (k : State → Result) : andThen (.fault f) k = .fault f := rfl
@[simp] theorem andThen_refused (e : Refusal) (k : State → Result) :
    andThen (.refused e) k = .refused e := rfl

/-- Going on reaches a next state only through the next state of the first part. -/
theorem andThen_eq_next {r : Result} {k : State → Result} {t : State} (h : andThen r k = .next t) :
    ∃ s, r = .next s ∧ k s = .next t := by
  cases r with
  | next s => exact ⟨s, rfl, h⟩
  | fault f => simp at h
  | refused e => simp at h

/-- A value read reaches a next state only when there is one. -/
theorem withValue_eq_next {α : Type} {r : Except Fault α} {k : α → Result} {t : State}
    (h : withValue r k = .next t) : ∃ v, r = .ok v ∧ k v = .next t := by
  cases r with
  | ok v => exact ⟨v, rfl, h⟩
  | error f => simp at h

@[simp] theorem bufferOf_tx (s : State) : bufferOf s .tx = s.txbuf := rfl
@[simp] theorem bufferOf_rx (s : State) : bufferOf s .rx = s.rxbuf := rfl

end Sys2Proof.Machine
end

