-- ==== Sys2Proof/Laws/Ops.lean ====
section
/-! SUPPORT. What each shared operation can do, said once: a push, a run of pushes, the frame builder,
the payload wait, the reads of a buffer that holds known bytes. -/

namespace Sys2Proof.Machine

/-! ## Pushing -/

theorem len_add_one_toNat {l : Len} (h : l.toNat < 256) : (l + 1).toNat = l.toNat + 1 := by
  rw [BitVec.toNat_add]
  have : (1 : Len).toNat = 1 := rfl
  omega

/-- A push with room (R92). -/
theorem pushByte_room {s : State} (b : Byte) (h : s.rxlen.toNat < 256) :
    pushByte b s = .next (answer (.rxpush (s.rxlen + 1))
      { s with rxbuf := setCell s.rxbuf s.rxlen.toNat b, rxlen := s.rxlen + 1 }) := by
  have h1 : s.rxlen.toNat ≠ Config.bufSize := by simp only [Config.bufSize]; omega
  have h2 : s.rxlen.toNat < Config.bufSize := h
  simp [pushByte, h1, writeCell_of_lt b h2]

/-- A push onto a full buffer (R93). -/
theorem pushByte_full {s : State} (b : Byte) (h : s.rxlen.toNat = 256) :
    pushByte b s = .next (answer (.error .rxOverflow) { s with rxovf := true }) := by
  simp [pushByte, Config.bufSize, h]

/-- Everything a push can do when it gives a next state. -/
theorem pushByte_cases {s t : State} {b : Byte} (h : pushByte b s = .next t) :
    (s.rxlen.toNat = 256 ∧ t = answer (.error .rxOverflow) { s with rxovf := true }) ∨
    (s.rxlen.toNat < 256 ∧ t = answer (.rxpush (s.rxlen + 1))
      { s with rxbuf := setCell s.rxbuf s.rxlen.toNat b, rxlen := s.rxlen + 1 }) := by
  rcases Nat.lt_trichotomy s.rxlen.toNat 256 with hlt | heq | hgt
  · rw [pushByte_room b hlt] at h
    cases h
    exact .inr ⟨hlt, rfl⟩
  · rw [pushByte_full b heq] at h
    cases h
    exact .inl ⟨heq, rfl⟩
  · have h1 : s.rxlen.toNat ≠ Config.bufSize := by simp only [Config.bufSize]; omega
    have h2 : Config.bufSize ≤ s.rxlen.toNat := by simp only [Config.bufSize]; omega
    simp [pushByte, h1, writeCell, h2] at h

/-- With at most 256 bytes in the buffer a push always gives a next state. -/
theorem pushByte_total {s : State} (b : Byte) (h : s.rxlen.toNat ≤ 256) :
    ∃ t, pushByte b s = .next t ∧ t.rxlen.toNat ≤ 256 := by
  rcases Nat.lt_or_eq_of_le h with hlt | heq
  · exact ⟨_, pushByte_room b hlt, by rw [answer_rxlen, len_add_one_toNat hlt]; omega⟩
  · exact ⟨_, pushByte_full b heq, by simp [heq]⟩

/-- What a run of pushes may change: the receive side and the responses. -/
theorem pushBytes_frame {bs : List Byte} {s t : State} (h : pushBytes bs s = .next t) :
    t = { s with rxlen := t.rxlen, rxovf := t.rxovf, rxbuf := t.rxbuf, responses := t.responses } := by
  induction bs generalizing s with
  | nil => cases h; rfl
  | cons b bs ih =>
    obtain ⟨m, hm, hk⟩ := andThen_eq_next h
    have := ih hk
    rcases pushByte_cases hm with ⟨-, rfl⟩ | ⟨-, rfl⟩ <;> simpa using this

theorem pushBytes_total {bs : List Byte} {s : State} (h : s.rxlen.toNat ≤ 256) :
    ∃ t, pushBytes bs s = .next t := by
  induction bs generalizing s with
  | nil => exact ⟨s, rfl⟩
  | cons b bs ih =>
    obtain ⟨m, hm, hl⟩ := pushByte_total b h
    obtain ⟨t, ht⟩ := ih hl
    exact ⟨t, by rw [pushBytes, hm, andThen_next, ht]⟩

/-- A run of pushes gives one response a byte. -/
theorem pushBytes_responses {bs : List Byte} {s t : State} (h : pushBytes bs s = .next t) :
    ∃ rs, t.responses = s.responses ++ rs ∧ rs.length = bs.length := by
  induction bs generalizing s with
  | nil => cases h; exact ⟨[], by simp⟩
  | cons b bs ih =>
    obtain ⟨m, hm, hk⟩ := andThen_eq_next h
    obtain ⟨rs, hrs, hl⟩ := ih hk
    rcases pushByte_cases hm with ⟨-, rfl⟩ | ⟨-, rfl⟩
    · exact ⟨.error .rxOverflow :: rs, by simp [hrs], by simp [hl]⟩
    · exact ⟨.rxpush (s.rxlen + 1) :: rs, by simp [hrs], by simp [hl]⟩

/-- The responses of pushes with room, `rsp_len` rising from `l + 1` (R49). -/
def pushResponses : List Byte → Len → List Response
  | [], _ => []
  | _ :: bs, l => .rxpush (l + 1) :: pushResponses bs (l + 1)

/-- A run of pushes with room for all of them. -/
theorem pushBytes_room {bs : List Byte} {s : State} (h : s.rxlen.toNat + bs.length ≤ 256) :
    pushBytes bs s = .next { s with
      rxbuf := fillCells s.rxbuf s.rxlen.toNat bs
      rxlen := s.rxlen + BitVec.ofNat 9 bs.length
      responses := s.responses ++ pushResponses bs s.rxlen } := by
  induction bs generalizing s with
  | nil => simp [pushBytes, fillCells, pushResponses]
  | cons b bs ih =>
    simp only [List.length_cons] at h
    have hlt : s.rxlen.toNat < 256 := by omega
    have hl := len_add_one_toNat hlt
    have hadd : s.rxlen + 1 + BitVec.ofNat 9 bs.length = s.rxlen + BitVec.ofNat 9 (bs.length + 1) := by
      rw [BitVec.add_assoc, BitVec.add_comm 1, BitVec.ofNat_add]
      rfl
    rw [pushBytes, pushByte_room b hlt, andThen_next, ih (by rw [answer_rxlen, hl]; omega)]
    simp only [answer, hl, hadd, fillCells, pushResponses, List.length_cons, List.append_assoc,
      List.cons_append, List.nil_append]

theorem pushed_length_toNat {l : Len} {n : Nat} (h : l.toNat + n ≤ 256) :
    (l + BitVec.ofNat 9 n).toNat = l.toNat + n := by
  rw [BitVec.toNat_add, BitVec.toNat_ofNat]
  omega

/-! ## Building a frame -/

theorem lenByte_eq (n : Nat) : lenByte n = BitVec.ofNat 8 n := by
  have : (0xFF : Byte) = BitVec.allOnes 8 := rfl
  rw [lenByte, this, BitVec.and_allOnes]

@[simp] theorem unsummedFrame_length (flag seq : Byte) (p : List Byte) :
    (unsummedFrame flag seq p).length = p.length + 6 := by
  simp [unsummedFrame]

@[simp] theorem frameBytes_length (flag seq : Byte) (p : List Byte) :
    (frameBytes flag seq p).length = p.length + 6 := by
  simp [frameBytes]

/-- The fold of the cells ENCODE has written is the closed form of R68. -/
theorem xorBytes_unsummedFrame (flag seq : Byte) (p : List Byte) :
    xorBytes (unsummedFrame flag seq p) = closedChecksum flag seq p := by
  simp only [unsummedFrame, xorBytes, xorBytes_append, lenByte_eq, closedChecksum]
  simp [BitVec.xor_assoc]

theorem holdsFrom_fillCells (m : Buffer) (bs : List Byte) : holdsFrom (fillCells m 0 bs) bs := by
  intro j hj
  have := cellAt_fillCells_inside bs (m := m) (a := 0) hj
  simpa using this

/-- The frame is the unsummed one with the checksum put over the placeholder. -/
theorem frameBytes_eq_set (flag seq : Byte) (p : List Byte) :
    frameBytes flag seq p =
      (unsummedFrame flag seq p).set (4 + p.length) (closedChecksum flag seq p) := by
  have : 4 + p.length = p.length + 4 := by omega
  simp [frameBytes, unsummedFrame, lenByte_eq, this]

/-- TXBUF after steps R62 to R65 for the payload `p`. -/
def builtBuffer (m : Buffer) (flag seq : Byte) (p : List Byte) : Buffer :=
  setCell (fillCells m 0 (unsummedFrame flag seq p)) (4 + p.length) (closedChecksum flag seq p)

theorem holdsFrom_builtBuffer (m : Buffer) (flag seq : Byte) (p : List Byte) :
    holdsFrom (builtBuffer m flag seq p) (frameBytes flag seq p) := by
  intro j hj
  rw [builtBuffer, cellAt_setCell, frameBytes_eq_set, List.getElem?_set]
  simp only [frameBytes_length] at hj
  by_cases h : j = 4 + p.length
  · subst h
    simp
    omega
  · have h' : ¬ 4 + p.length = j := fun q => h q.symm
    rw [if_neg h, if_neg h']
    exact holdsFrom_fillCells m _ j (by simpa using hj)

theorem cellAt_builtBuffer_above {m : Buffer} {flag seq : Byte} {p : List Byte} {a : Nat}
    (h : p.length + 6 ≤ a) : cellAt (builtBuffer m flag seq p) a = cellAt m a := by
  rw [builtBuffer, cellAt_setCell_other _ _ (by omega), cellAt_fillCells_above _ (by simpa using h)]

theorem bufferWf_builtBuffer {m : Buffer} {flag seq : Byte} {p : List Byte} (hm : bufferWf m = true)
    (h : p.length ≤ 250) : bufferWf (builtBuffer m flag seq p) = true := by
  refine bufferWf_setCell _ (bufferWf_fillCells _ hm ?_) ?_
  · simp only [unsummedFrame_length, Config.bufSize]; omega
  · simp only [Config.bufSize]; omega

/-- Every byte of a frame together folds to zero (R75). -/
theorem xorBytes_frameBytes (flag seq : Byte) (p : List Byte) : xorBytes (frameBytes flag seq p) = 0 := by
  have h : ∀ x : Byte, x ^^^ x = 0 := fun x => BitVec.xor_self
  have z : ∀ x : Byte, x ^^^ 0 = x := fun x => BitVec.xor_zero
  have key : xorBytes (frameBytes flag seq p) =
      closedChecksum flag seq p ^^^ closedChecksum flag seq p := by
    simp only [frameBytes, xorBytes_append, xorBytes]
    conv_rhs => lhs; rw [closedChecksum]
    simp only [z]
    ac_rfl
  rw [key, h]

/-- The frame builder on a payload of at most 250 bytes (R62 to R66). -/
theorem buildFrame_eq {flag : Byte} {p : List Byte} {s : State} (h : p.length ≤ 250) :
    buildFrame flag p s = .next (answer (.encode (BitVec.ofNat 9 (p.length + 6)))
      { s with
        txbuf := builtBuffer s.txbuf flag s.seqctr p
        seqctr := seqNext s.seqctr
        txlen := BitVec.ofNat 9 (p.length + 6) }) := by
  have hf : xorFold .tx (fillCells s.txbuf 0 (unsummedFrame flag s.seqctr p)) (p.length + 6) =
      .ok (closedChecksum flag s.seqctr p) := by
    have := xorFold_of_holds (b := .tx) (bs := unsummedFrame flag s.seqctr p)
      (by simp only [unsummedFrame_length, Config.bufSize]; omega) (holdsFrom_fillCells s.txbuf _)
    rwa [unsummedFrame_length, xorBytes_unsummedFrame] at this
  simp [buildFrame, filledBuffer, Config.overhead, hf, builtBuffer]

theorem frameLen_toNat {n : Nat} (h : n ≤ 250) : (BitVec.ofNat 9 (n + 6)).toNat = n + 6 := by
  rw [BitVec.toNat_ofNat]
  omega

theorem seqNext_toNat (c : Byte) : (seqNext c).toNat = (c.toNat + 1) % 255 := by
  rw [seqNext, BitVec.toNat_ofNat, Config.seqMod]
  omega

/-! ## ENCODE -/

theorem payloadTooLong_iff (n : Nat) : payloadTooLong n = true ↔ 250 < n := by
  exact decide_eq_true_iff

theorem execEncode_tooLong {flag : Byte} {n : Nat} {s : State} (h : 250 < n) :
    execEncode flag n s = .next (answer (.error .payloadTooLarge) { s with txlen := 0 }) := by
  simp [execEncode, (payloadTooLong_iff n).mpr h]

theorem execEncode_gathers {flag : Byte} {n : Nat} {s : State} (h : n ≤ 250) :
    execEncode flag n s = gatherPayload { flag := flag, n := n, got := [] } s := by
  have : ¬ payloadTooLong n = true := by rw [payloadTooLong_iff]; omega
  simp [execEncode, this]

/-- The payload is not all there. -/
theorem gatherPayload_waits {fl : Flight} {s : State} (h : (offered fl s).length < fl.n) :
    gatherPayload fl s =
      .next { s with flight := some { fl with got := offered fl s }, payload := [] } := by
  simp only [gatherPayload, if_pos h]

/-- The state in which the frame has been built. -/
def builtState (flag : Byte) (p rest : List Byte) (s : State) : State :=
  answer (.encode (BitVec.ofNat 9 (p.length + 6)))
    { s with
      flight := none
      payload := rest
      txbuf := builtBuffer s.txbuf flag s.seqctr p
      seqctr := seqNext s.seqctr
      txlen := BitVec.ofNat 9 (p.length + 6) }

/-- The payload is all there: a frame is built. -/
theorem gatherPayload_builds {fl : Flight} {s : State} (h : fl.n ≤ (offered fl s).length)
    (hn : fl.n ≤ 250) :
    gatherPayload fl s = .next (builtState fl.flag ((offered fl s).take fl.n)
      ((offered fl s).drop fl.n) s) := by
  have hlt : ¬ (offered fl s).length < fl.n := by omega
  simp only [gatherPayload, if_neg hlt]
  rw [buildFrame_eq (by rw [List.length_take]; omega)]
  rfl

@[simp] theorem offered_fresh (flag : Byte) (n : Nat) (s : State) :
    offered { flag := flag, n := n, got := [] } s = s.payload := rfl

/-- Everything ENCODE can do: it fails, waits or builds a frame. -/
theorem execEncode_cases {flag : Byte} {n : Nat} {s t : State} (h : execEncode flag n s = .next t) :
    (250 < n ∧ t = answer (.error .payloadTooLarge) { s with txlen := 0 }) ∨
    (n ≤ 250 ∧ s.payload.length < n ∧
      t = { s with flight := some { flag := flag, n := n, got := s.payload }, payload := [] }) ∨
    (n ≤ 250 ∧ n ≤ s.payload.length ∧
      t = builtState flag (s.payload.take n) (s.payload.drop n) s) := by
  rcases Nat.lt_or_ge 250 n with hn | hn
  · rw [execEncode_tooLong hn] at h
    cases h
    exact .inl ⟨hn, rfl⟩
  · rw [execEncode_gathers hn] at h
    rcases Nat.lt_or_ge s.payload.length n with hp | hp
    · rw [gatherPayload_waits (by exact hp)] at h
      cases h
      exact .inr (.inl ⟨hn, hp, by simp⟩)
    · rw [gatherPayload_builds (by exact hp) hn] at h
      cases h
      exact .inr (.inr ⟨hn, hp, by simp⟩)

/-! ## The canonical form of the memory -/

theorem memory_wf_iff (s : State) :
    Memory.wf s = true ↔ bufferWf s.txbuf = true ∧ bufferWf s.rxbuf = true := by
  simp [Memory.wf]

theorem memory_wf_reset : Memory.wf State.reset = true := rfl

theorem memory_wf_resetBlock (s : State) : Memory.wf (resetBlock s) = true := rfl

/-- A write of one cell keeps the form. -/
theorem bufferWf_writeCell {b : BufName} {m m' : Buffer} {i : Nat} {v : Byte}
    (h : bufferWf m = true) (hw : writeCell b m i v = .ok m') : bufferWf m' = true := by
  obtain ⟨hi, rfl⟩ := writeCell_eq_ok hw
  exact bufferWf_setCell v h hi

/-- A push keeps the form. -/
theorem memory_wf_pushByte {b : Byte} {s t : State} (h : Memory.wf s = true)
    (hp : pushByte b s = .next t) : Memory.wf t = true := by
  rw [memory_wf_iff] at h ⊢
  rcases pushByte_cases hp with ⟨-, rfl⟩ | ⟨hl, rfl⟩
  · exact h
  · exact ⟨h.1, bufferWf_setCell b h.2 hl⟩

/-- A run of pushes keeps the form. -/
theorem memory_wf_pushBytes {bs : List Byte} {s t : State} (h : Memory.wf s = true)
    (hp : pushBytes bs s = .next t) : Memory.wf t = true := by
  induction bs generalizing s with
  | nil => cases hp; exact h
  | cons b bs ih =>
    obtain ⟨m, hm, hk⟩ := andThen_eq_next hp
    exact ih (memory_wf_pushByte h hm) hk

/-- Building a frame keeps the form. -/
theorem memory_wf_builtState {flag : Byte} {p rest : List Byte} {s : State}
    (h : Memory.wf s = true) (hp : p.length ≤ 250) : Memory.wf (builtState flag p rest s) = true := by
  rw [memory_wf_iff] at h ⊢
  exact ⟨bufferWf_builtBuffer h.1 hp, h.2⟩

/-! ## Reading a buffer -/

/-- Everything a read by TXRD can do. -/
theorem execTxrd_cases {i : Nat} {s t : State} (h : execTxrd i s = .next t) :
    (s.txlen.toNat ≤ i ∧ t = answer (.error .range) s) ∨
    (i < s.txlen.toNat ∧ ∃ v, readCell .tx s.txbuf i = .ok v ∧ t = answer (.txrd v) s) := by
  unfold execTxrd outOfRange at h
  split at h
  · next hr =>
    cases h
    exact .inl ⟨by simpa using hr, rfl⟩
  · next hr =>
    obtain ⟨v, hv, hk⟩ := withValue_eq_next h
    cases hk
    exact .inr ⟨by simpa using hr, v, hv, rfl⟩

/-- Everything a read by RXRD can do. -/
theorem execRxrd_cases {i : Nat} {s t : State} (h : execRxrd i s = .next t) :
    (s.rxlen.toNat ≤ i ∧ t = answer (.error .range) s) ∨
    (i < s.rxlen.toNat ∧ ∃ v, readCell .rx s.rxbuf i = .ok v ∧ t = answer (.rxrd v) s) := by
  unfold execRxrd outOfRange at h
  split at h
  · next hr =>
    cases h
    exact .inl ⟨by simpa using hr, rfl⟩
  · next hr =>
    obtain ⟨v, hv, hk⟩ := withValue_eq_next h
    cases hk
    exact .inr ⟨by simpa using hr, v, hv, rfl⟩

/-- TXRD of a cell below its bound that reads. -/
theorem execTxrd_of {i : Nat} {s : State} {v : Byte} (h : i < s.txlen.toNat)
    (hv : readCell .tx s.txbuf i = .ok v) :
    execTxrd i s = .next (answer (.txrd v) s) := by
  have : ¬ outOfRange i s.txlen = true := by simp [outOfRange, h]
  rw [execTxrd, if_neg this, hv, withValue_ok, respond_eq]

/-- TXRD at or above its bound. -/
theorem execTxrd_range {i : Nat} {s : State} (h : s.txlen.toNat ≤ i) :
    execTxrd i s = .next (answer (.error .range) s) := by
  simp [execTxrd, outOfRange, h]

/-- RXRD of a cell below its bound that reads. -/
theorem execRxrd_of {i : Nat} {s : State} {v : Byte} (h : i < s.rxlen.toNat)
    (hv : readCell .rx s.rxbuf i = .ok v) :
    execRxrd i s = .next (answer (.rxrd v) s) := by
  have : ¬ outOfRange i s.rxlen = true := by simp [outOfRange, h]
  rw [execRxrd, if_neg this, hv, withValue_ok, respond_eq]

/-- RXRD at or above its bound. -/
theorem execRxrd_range {i : Nat} {s : State} (h : s.rxlen.toNat ≤ i) :
    execRxrd i s = .next (answer (.error .range) s) := by
  simp [execRxrd, outOfRange, h]

/-- A read of a buffer that holds known bytes. -/
theorem readCell_of_holds {b : BufName} {m : Buffer} {bs : List Byte} {i : Nat}
    (hl : bs.length ≤ Config.bufSize) (h : holdsFrom m bs) (hi : i < bs.length) :
    readCell b m i = .ok bs[i] := by
  refine readCell_of_cellAt (by omega) ?_
  rw [h i hi, List.getElem?_eq_getElem hi]

/-- Everything VERIFY can do. -/
theorem execVerify_cases {s t : State} (h : execVerify s = .next t) :
    (s.rxlen.toNat < 2 ∧ t = answer (.error .runt) s) ∨
    (2 ≤ s.rxlen.toNat ∧ ∃ stored c, readCell .rx s.rxbuf (s.rxlen.toNat - 2) = .ok stored ∧
      xorFoldMasked .rx s.rxbuf (s.rxlen.toNat - 2) s.rxlen.toNat = .ok c ∧
      t = answer (.verify (verdict c stored)) s) := by
  unfold execVerify at h
  split at h
  · next hr =>
    cases h
    exact .inl ⟨hr, rfl⟩
  · next hr =>
    obtain ⟨stored, hs, hk⟩ := withValue_eq_next h
    obtain ⟨c, hc, hk⟩ := withValue_eq_next hk
    cases hk
    exact .inr ⟨by omega, stored, c, hs, hc, rfl⟩

/-- Everything DECODE can do. -/
theorem execDecode_cases {s t : State} (h : execDecode s = .next t) :
    (s.rxlen.toNat < 6 ∧ t = answer (.error .runt) s) ∨
    (6 ≤ s.rxlen.toNat ∧ ∃ first flag seq flen cs last fold,
      readCell .rx s.rxbuf 0 = .ok first ∧ readCell .rx s.rxbuf 1 = .ok flag ∧
      readCell .rx s.rxbuf 2 = .ok seq ∧ readCell .rx s.rxbuf 3 = .ok flen ∧
      readCell .rx s.rxbuf (s.rxlen.toNat - 2) = .ok cs ∧
      readCell .rx s.rxbuf (s.rxlen.toNat - 1) = .ok last ∧
      xorFold .rx s.rxbuf s.rxlen.toNat = .ok fold ∧
      t = answer (.decode s.rxlen flag seq flen cs
        (decBits (stxOk first) (etxOk last) (lenOk flen s.rxlen.toNat) (csOk fold) (flagKnown flag)
          s.rxovf)) s) := by
  unfold execDecode at h
  split at h
  · next hr =>
    cases h
    exact .inl ⟨hr, rfl⟩
  · next hr =>
    obtain ⟨first, h0, hk⟩ := withValue_eq_next h
    obtain ⟨flag, h1, hk⟩ := withValue_eq_next hk
    obtain ⟨seq, h2, hk⟩ := withValue_eq_next hk
    obtain ⟨flen, h3, hk⟩ := withValue_eq_next hk
    obtain ⟨cs, h4, hk⟩ := withValue_eq_next hk
    obtain ⟨last, h5, hk⟩ := withValue_eq_next hk
    obtain ⟨fold, h6, hk⟩ := withValue_eq_next hk
    cases hk
    have : ¬ s.rxlen.toNat < 6 := hr
    exact .inr ⟨by omega, first, flag, seq, flen, cs, last, fold, h0, h1, h2, h3, h4, h5, h6, rfl⟩

/-- VERIFY when its reads succeed. -/
theorem execVerify_of {s : State} {stored c : Byte} (h : 2 ≤ s.rxlen.toNat)
    (hs : readCell .rx s.rxbuf (s.rxlen.toNat - 2) = .ok stored)
    (hc : xorFoldMasked .rx s.rxbuf (s.rxlen.toNat - 2) s.rxlen.toNat = .ok c) :
    execVerify s = .next (answer (.verify (verdict c stored)) s) := by
  rw [execVerify, if_neg (by omega), hs, withValue_ok, hc, withValue_ok, respond_eq]

/-- DECODE when its reads succeed. -/
theorem execDecode_of {s : State} {first flag seq flen cs last fold : Byte} (h : 6 ≤ s.rxlen.toNat)
    (h0 : readCell .rx s.rxbuf 0 = .ok first) (h1 : readCell .rx s.rxbuf 1 = .ok flag)
    (h2 : readCell .rx s.rxbuf 2 = .ok seq) (h3 : readCell .rx s.rxbuf 3 = .ok flen)
    (h4 : readCell .rx s.rxbuf (s.rxlen.toNat - 2) = .ok cs)
    (h5 : readCell .rx s.rxbuf (s.rxlen.toNat - 1) = .ok last)
    (h6 : xorFold .rx s.rxbuf s.rxlen.toNat = .ok fold) :
    execDecode s = .next (answer (.decode s.rxlen flag seq flen cs
      (decBits (stxOk first) (etxOk last) (lenOk flen s.rxlen.toNat) (csOk fold) (flagKnown flag)
        s.rxovf)) s) := by
  have hn : ¬ s.rxlen.toNat < Config.overhead := by simp only [Config.overhead]; omega
  rw [execDecode, if_neg hn, h0, withValue_ok, h1, withValue_ok, h2, withValue_ok, h3, withValue_ok,
    h4, withValue_ok, h5, withValue_ok, h6, withValue_ok, respond_eq]

/-- The bits of a DECODE response, bit by bit (R80, R84). -/
theorem decBits_bit (stx etx len cs known ovf : Bool) :
    (decBits stx etx len cs known ovf).getLsbD 0 = stx ∧
    (decBits stx etx len cs known ovf).getLsbD 1 = etx ∧
    (decBits stx etx len cs known ovf).getLsbD 2 = len ∧
    (decBits stx etx len cs known ovf).getLsbD 3 = cs ∧
    (decBits stx etx len cs known ovf).getLsbD 4 = known ∧
    (decBits stx etx len cs known ovf).getLsbD 5 = ovf ∧
    (decBits stx etx len cs known ovf).getLsbD 6 = frameOk stx etx len cs ovf := by
  cases stx <;> cases etx <;> cases len <;> cases cs <;> cases known <;> cases ovf <;> decide

/-! ## A step with an ENCODE in flight -/

/-- Everything a wait can do when it goes on: it takes the bytes there are (and answers when they are
enough), or the first reset in HOST's list ends it. -/
theorem waitFlight_cases {fl : Flight} {s t : State} (h : waitFlight fl s = .next t) :
    gatherPayload fl s = .next t ∨
    ((offered fl s).length < fl.n ∧ HostEvent.reset ∈ s.host ∧
      t = resetBlock { s with host := s.host.erase .reset }) := by
  unfold waitFlight at h
  split at h
  · exact .inl h
  · split at h
    · cases h
    · split at h
      · next hl _ _ hr =>
        cases h
        exact .inr ⟨by omega, by simpa using hr, rfl⟩
      · exact .inl h

/-- Before the first reset only a reset goes on from an ENCODE in flight. -/
theorem unresetFlight_cases {s t : State} (h : unresetFlight s = .next t) :
    ∃ rest, s.host = .reset :: rest ∧ t = resetBlock { s with host := rest } := by
  unfold unresetFlight at h
  split at h
  · next rest hh =>
    cases h
    exact ⟨rest, hh, rfl⟩
  · cases h

end Sys2Proof.Machine
end

