-- ==== Sys2Proof/Laws/PerInstr.lean ====
section
/-! SUPPORT. Per instruction: the word the encoder writes has the format and the fixed bits of its row of
spec/opcode_table.json. -/

namespace Sys2Proof.Laws.TableRow

/-- The encoder's word is in the instruction's row. -/
def Statement (i : Instr) : Prop := (encode i).inRow i.row = true

/-- Masking the high `m` bits above bit `k`. -/
theorem and_high_mask {x hi lo k m : Nat} (hx : x = 2 ^ k * hi + lo) (hlo : lo < 2 ^ k)
    (hhi : hi < 2 ^ m) : x &&& ((2 ^ m - 1) <<< k) = 2 ^ k * hi := by
  apply Nat.eq_of_testBit_eq
  intro j
  rw [hx, Nat.testBit_and, Nat.testBit_shiftLeft, Nat.testBit_two_pow_sub_one,
    Nat.testBit_two_pow_mul_add _ hlo, Nat.testBit_two_pow_mul]
  by_cases hj : j < k
  · have : ¬ k ≤ j := by omega
    simp [this]
  · have hk : k ≤ j := by omega
    by_cases hm : j - k < m
    · simp [hj, hk, hm]
    · have : hi.testBit (j - k) = false := by
        apply Nat.testBit_lt_two_pow
        exact Nat.lt_of_lt_of_le hhi (Nat.pow_le_pow_right (by decide) (by omega))
      simp [hj, hk, this]

/-- An operation word of any LENW is in the row its op code has. -/
theorem inRow_op {lenw : Nat} {c : BitVec 3} {a : Byte} {n : Nat} {r : Row}
    (hf : r.format = .opword27) (hm : r.mask = 0x7000000) (hv : r.value = 2 ^ 24 * c.toNat) :
    (opwordOf lenw c a n).inRow r = true := by
  have key : (packOp c a (BitVec.ofNat lenw n)).toNat / 2 ^ lenw * 2 ^ Config.lenw &&& 0x7000000 =
      2 ^ 24 * c.toNat :=
    and_high_mask (k := 24) (m := 3) (lo := a.toNat * 2 ^ 16)
      (by rw [packOp_div, Config.lenw]; omega) (by omega) c.isLt
  simp only [opwordOf, RawWord.inRow, RawWord.format, RawWord.bits, hf, hm, hv, key, beq_self_eq_true,
    Bool.and_self]

theorem illegal : Statement .illegal := inRow_op (c := 0) rfl rfl rfl
theorem encode (flag : Byte) (n : Nat) : Statement (.encode flag n) := inRow_op (c := 1) rfl rfl rfl
theorem txrd (i : Nat) : Statement (.txrd i) := inRow_op (c := 2) rfl rfl rfl
theorem rxclr : Statement .rxclr := inRow_op (c := 3) rfl rfl rfl
theorem rxpush (b : Byte) : Statement (.rxpush b) := inRow_op (c := 4) rfl rfl rfl
theorem rxrd (i : Nat) : Statement (.rxrd i) := inRow_op (c := 5) rfl rfl rfl
theorem verify : Statement .verify := inRow_op (c := 6) rfl rfl rfl
theorem decode : Statement .decode := inRow_op (c := 7) rfl rfl rfl

/-- The high half of a header word, masked. -/
theorem header_high {b0 b1 b2 b3 : Byte} :
    (packHeader b0 b1 b2 b3).toNat &&& 0xFFFF0000 = 2 ^ 16 * (b0.toNat * 2 ^ 8 + b1.toNat) :=
  and_high_mask (k := 16) (m := 16) (lo := b2.toNat * 2 ^ 8 + b3.toNat)
    (by rw [packHeader_toNat]; omega) (by omega) (by omega)

/-- The first byte of a header word, masked. -/
theorem header_first {b0 b1 b2 b3 : Byte} :
    (packHeader b0 b1 b2 b3).toNat &&& 0xFF000000 = 2 ^ 24 * b0.toNat :=
  and_high_mask (k := 24) (m := 8) (lo := (b1.toNat * 2 ^ 8 + b2.toNat) * 2 ^ 8 + b3.toNat)
    (by rw [packHeader_toNat]; omega) (by omega) b0.isLt

/-- The last byte of a trailer word, masked. -/
theorem trailer_last {c e : Byte} : (packTrailer c e).toNat &&& 0x00FF = e.toNat := by
  have h : (0x00FF : Nat) = 2 ^ 8 - 1 := rfl
  rw [h, Nat.and_two_pow_sub_one_eq_mod, packTrailer_toNat]
  omega

theorem inRow_named {b1 b2 b3 : Byte} {r : Row} (hf : r.format = .frameHeader32)
    (hm : r.mask = 0xFFFF0000) (hv : r.value = 2 ^ 16 * (0x02 * 2 ^ 8 + b1.toNat)) :
    (RawWord.header (packHeader Config.stx b1 b2 b3)).inRow r = true := by
  simp only [RawWord.inRow, RawWord.format, RawWord.bits, hf, hm, hv, header_high]
  simp [Config.stx]

theorem frameEnq (seq len : Byte) : Statement (.frameEnq seq len) := inRow_named rfl rfl rfl
theorem frameAck (seq len : Byte) : Statement (.frameAck seq len) := inRow_named rfl rfl rfl
theorem frameNak (seq len : Byte) : Statement (.frameNak seq len) := inRow_named rfl rfl rfl

theorem frameAny (flag seq len : Byte) : Statement (.frameAny flag seq len) := by
  simp only [Statement, Sys2Proof.encode, encodeAt, Instr.row, RawWord.inRow, RawWord.format, RawWord.bits, header_first]
  decide

theorem frameTrailer (cs : Byte) : Statement (.frameTrailer cs) := by
  simp only [Statement, Sys2Proof.encode, encodeAt, Instr.row, RawWord.inRow, RawWord.format, RawWord.bits, trailer_last]
  decide

end Sys2Proof.Laws.TableRow
end

