-- ==== Sys2Proof/Tests/Slice0.lean ====
section
/-! SUPPORT. Tests and witnesses. Every expected result is a row of spec/95_test_vectors.md or a value
written out by hand from the rule named. A theorem `witness_X` shows concrete states and operands that
meet all hypotheses of the statement X together, clause by clause at the ends of its ranges. -/

namespace Sys2Proof.Machine

/-! ## Looking at an outcome -/

/-- The next state of an outcome. -/
def nextOf : Result → Option State
  | .next t => some t
  | .fault _ => none
  | .refused _ => none

/-- `(SEQCTR, TXLEN, RXLEN, RXOVF)` as the vectors write a state. -/
def regsOf (r : Result) : Option (Nat × Nat × Nat × Bool) :=
  (nextOf r).map fun t => (t.seqctr.toNat, t.txlen.toNat, t.rxlen.toNat, t.rxovf)

/-- The responses an outcome gives. -/
def saysOf (r : Result) : Option (List Response) := (nextOf r).map (·.responses)

/-- The first `n` cells of TXBUF. -/
def txOf (n : Nat) (r : Result) : Option (List (Option Byte)) :=
  (nextOf r).map fun t => (List.range n).map (cellAt t.txbuf)

/-- The cells `a` to `a + n - 1` of RXBUF. -/
def rxOf (a n : Nat) (r : Result) : Option (List (Option Byte)) :=
  (nextOf r).map fun t => (List.range n).map fun i => cellAt t.rxbuf (a + i)

/-- The refusal of an outcome. -/
def refusalOf : Result → Option Refusal
  | .next _ => none
  | .fault _ => none
  | .refused e => some e

theorem exists_next {r : Result} (h : (nextOf r).isSome = true) : ∃ t, r = .next t := by
  cases r with
  | next t => exact ⟨t, rfl⟩
  | fault f => cases h
  | refused e => cases h

/-- The instruction gives a next state and one response. -/
def gives (i : Instr) (s : State) (r : Response) : Prop :=
  ∃ t, exec i s = .next t ∧ t.responses = s.responses ++ [r]

theorem gives_of {i : Instr} {s : State} {r : Response}
    (h : saysOf (exec i s) = some (s.responses ++ [r])) : gives i s r := by
  unfold gives
  cases hx : exec i s with
  | next t =>
    rw [hx] at h
    exact ⟨t, rfl, Option.some.inj h⟩
  | fault f => rw [hx] at h; cases h
  | refused e => rw [hx] at h; cases h

/-! ## Small states -/

/-- `n` bytes of value `b`. -/
def same (n : Nat) (b : Byte) : List Byte := List.replicate n b

@[simp] theorem same_length (n : Nat) (b : Byte) : (same n b).length = n := List.length_replicate

/-- The frame of vector V1. -/
def v1Frame : List Byte := [0x02, 0x05, 0x00, 0x02, 0x41, 0x42, 0x05, 0x03]

/-- The frame of vector VE15, 256 bytes. -/
def ve15Frame : List Byte := [0x02, 0x05, 0x0A, 0xFA] ++ same 250 0x00 ++ [0xF4, 0x03]

/-- RXBUF holds the bytes listed, as after RXLOAD on the reset state. -/
def rxState (bs : List Byte) : State :=
  { State.reset with rxbuf := fillCells [] 0 bs, rxlen := BitVec.ofNat 9 bs.length }

/-- `(1, 8, 0, 0)` with V1's frame in TXBUF: the state after V1's ENCODE. -/
def sentState : State :=
  { State.reset with seqctr := 1, txlen := 8, txbuf := fillCells [] 0 v1Frame }

/-- `(c, 0, 0, 0)` with payload bytes presented. -/
def payState (c : Byte) (p : List Byte) : State := { State.reset with seqctr := c, payload := p }

/-- `(0, 0, n, 0)` with one written cell: enough for an operation that looks at RXLEN. -/
def rxlenState (n : Nat) : State :=
  { State.reset with rxlen := BitVec.ofNat 9 n, rxbuf := [(255, 0x03)] }

/-! ## Well-formedness (log 14, log 19) -/

/-- A number operand of LENW bits holds at most 2^LENW - 1 (R46). -/
theorem test_wf_refuses_wide_encode :
    (Instr.encode 0x05 65536).wf = false ∧ (Instr.encode 0x05 512).wfAt 9 = false := by decide
theorem test_wf_refuses_wide_txrd :
    (Instr.txrd 65536).wf = false ∧ (Instr.txrd 512).wfAt 9 = false := by decide
theorem test_wf_refuses_wide_rxrd :
    (Instr.rxrd 65536).wf = false ∧ (Instr.rxrd 512).wfAt 9 = false := by decide
theorem test_wf_takes_number_at_its_lenw :
    (Instr.txrd 65535).wf = true ∧ (Instr.txrd 511).wfAt 9 = true ∧
      (Instr.encode 0x05 65536).wfAt 17 = true := by decide

theorem test_wf_refuses_any_with_enq : (Instr.frameAny 0x05 0x00 0x02).wf = false := by decide
theorem test_wf_refuses_any_with_ack : (Instr.frameAny 0x06 0x00 0x02).wf = false := by decide
theorem test_wf_refuses_any_with_nak : (Instr.frameAny 0x15 0x00 0x02).wf = false := by decide
theorem test_wf_takes_other_flags :
    (Instr.frameAny 0x00 0xFF 0xFF).wf = true ∧ (Instr.encode 0xFF 65535).wf = true := by decide

/-! ## Decoding: words of spec/opcode_table.json and 95_test_vectors.md -/

/-- Rows VI2, VI3, VE1, X (105FFFF), VB6, VB7. -/
theorem test_decode_transmit_words :
    decode (.opword 16 0x0FFFFFF) = .ok .illegal ∧ decode (.opword 16 0x0050002) = .ok .illegal ∧
    decode (.opword 16 0x1050002) = .ok (.encode 0x05 2) ∧
    decode (.opword 16 0x105FFFF) = .ok (.encode 0x05 65535) ∧
    decode (.opword 16 0x200FFFF) = .ok (.txrd 65535) ∧
    decode (.opword 16 0x2AB0006) = .ok (.txrd 6) := by decide

/-- Rows VB12, VB15, VB17, table C and table D, with ignored fields set as well (R53). -/
theorem test_decode_receive_words :
    decode (.opword 16 0x3000000) = .ok .rxclr ∧ decode (.opword 16 0x3FFFFFF) = .ok .rxclr ∧
    decode (.opword 16 0x4550000) = .ok (.rxpush 0x55) ∧
    decode (.opword 16 0x455FFFF) = .ok (.rxpush 0x55) ∧
    decode (.opword 16 0x50000FF) = .ok (.rxrd 255) ∧ decode (.opword 16 0x6000000) = .ok .verify ∧
    decode (.opword 16 0x6123456) = .ok .verify ∧ decode (.opword 16 0x7000000) = .ok .decode := by decide

/-- The first four and the last two bytes of V1, VE5, VE7 and VE10. -/
theorem test_decode_wire_words :
    decode (.header 0x02050002) = .ok (.frameEnq 0x00 0x02) ∧
    decode (.header 0x02060000) = .ok (.frameAck 0x00 0x00) ∧
    decode (.header 0x02150000) = .ok (.frameNak 0x00 0x00) ∧
    decode (.header 0x02000301) = .ok (.frameAny 0x00 0x03 0x01) ∧
    decode (.trailer 0x0503) = .ok (.frameTrailer 0x05) := by decide

/-- R4, R46: "ENCODE 0x05, n = 2" and "TXRD 511" for LENW = 9, {3, 8, 9 bits}; "RXRD 65536" for
LENW = 17; and no LENW below 9 (D8). -/
theorem test_decode_other_lenw :
    decode (.opword 9 0x20A02) = .ok (.encode 0x05 2) ∧
    decode (.opword 9 0x401FF) = .ok (.txrd 511) ∧
    decode (.opword 17 0xA010000) = .ok (.rxrd 65536) ∧
    decode (.opword 8 0x10502) = .error .narrowLenw := by decide

/-- Without STX or ETX a wire word is no row (R40). -/
theorem test_decode_refuses_markers :
    decode (.header 0x03050002) = .error .headerWithoutStx ∧
    decode (.trailer 0x0302) = .error .trailerWithoutEtx := by decide

/-- One instruction for each OPWORD27 row. -/
def opInstrs : List Instr :=
  [.illegal, .encode 0 0, .txrd 0, .rxclr, .rxpush 0, .rxrd 0, .verify, .decode]

/-- No two OPWORD27 rows of the table overlap: under the bits both fix, they differ. -/
theorem test_op_rows_disjoint :
    (opInstrs.map Instr.row).Pairwise fun r r' =>
      r.value &&& (r.mask &&& r'.mask) ≠ r'.value &&& (r.mask &&& r'.mask) := by decide

/-- Words as the host numbers them (log 4). -/
theorem test_table_words :
    decodeTableWord 27 0x1050002 = some (.encode 0x05 2) ∧
    decodeTableWord 32 0x1050002 = some (.encode 0x05 2) ∧
    decodeTableWord 32 0x02000000 = some (.txrd 0) ∧
    decodeTableWord 32 0x02060000 = some (.frameAck 0 0) ∧
    decodeTableWord 16 0x0003 = some (.frameTrailer 0) ∧
    decodeTableWord 16 0x0002 = none := by decide

/-! ## The step -/

/-- Vector V1, through the step: the word `1050002` and the bytes `41 42` from the reset state. -/
theorem test_step_v1 :
    let r := step { State.reset with host := [.present (.opword 16 0x1050002)], payload := [0x41, 0x42] }
    regsOf r = some (1, 8, 0, false) ∧ saysOf r = some [.encode 8] ∧
      txOf 8 r = some (v1Frame.map some) := by decide

/-- `withFetchWord` runs the word with zero payload bytes; `06` is `02 ^ 05 ^ 00 ^ 02 ^ 00 ^ 00 ^ 03`
(R68, log 2). -/
theorem test_fetch_word :
    let r := step (State.reset.withFetchWord 32 0x1050002)
    regsOf r = some (1, 8, 0, false) ∧
      txOf 8 r = some ([0x02, 0x05, 0x00, 0x02, 0x00, 0x00, 0x06, 0x03].map some) := by decide

/-- Row VR1. -/
theorem test_reset_vr1 :
    regsOf (step { sentState with
      seqctr := 17, rxlen := 6, rxovf := true, rxbuf := fillCells [] 0 v1Frame, host := [.reset] }) =
      some (0, 0, 0, false) := by decide

/-- Row VR3: the ENCODE is accepted and never answered. -/
theorem test_reset_vr3 :
    let r := step { payState 254 [] with host := [.abandon (.opword 16 0x1050000)] }
    regsOf r = some (0, 0, 0, false) ∧ saysOf r = some [] := by decide

/-- R102, R104: the second byte never comes; the word HOST holds meanwhile is not accepted. -/
theorem test_encode_waits :
    let r := step { payState 7 [0x41] with
      host := [.present (.opword 16 0x1050002), .present (.opword 16 0x3000000)] }
    regsOf r = some (7, 0, 0, false) ∧ saysOf r = some [] ∧
      (nextOf r).map (·.host.length) = some 1 ∧ (nextOf r).map opReady = some false := by decide

/-- R109, R138, log 20: the refusals. -/
theorem test_refusals :
    refusalOf (step { State.reset with host := [.breakHandshake] }) = some .handshakeBroken ∧
    refusalOf (step { State.reset with wasReset := false, host := [.present (.opword 16 0x3000000)] }) =
      some .beforeFirstReset ∧
    refusalOf (step { State.reset with host := [.present (.header 0x03050002)] }) =
      some (.undecodable .headerWithoutStx) ∧
    refusalOf (step { payState 0 [] with flight := some { flag := 0x05, n := 1, got := [] }, wasReset := false }) =
      some .beforeFirstReset := by decide

/-! ## The operations -/

/-- Row VI3: no payload byte is taken. -/
theorem test_illegal :
    exec .illegal (payState 0 [0x41, 0x42]) =
      .next { payState 0 [0x41, 0x42] with responses := [.error .illegalOp] } := rfl

/-- Row VE8: the last SEQ value; the counter wraps to 0. -/
theorem test_encode_ve8 :
    let r := exec (.encode 0x15 1) (payState 254 [0xFF, 0xAA])
    regsOf r = some (0, 7, 0, false) ∧ saysOf r = some [.encode 7] ∧
      txOf 7 r = some ([0x02, 0x15, 0xFE, 0x01, 0xFF, 0x14, 0x03].map some) ∧
      (nextOf r).map (·.payload) = some [0xAA] := by decide

/-- Row VX3: 506, whose low byte is 250. -/
theorem test_encode_vx3 :
    let r := exec (.encode 0x05 506) { sentState with seqctr := 5, payload := [0x41] }
    regsOf r = some (5, 0, 0, false) ∧ saysOf r = some [.error .payloadTooLarge] ∧
      (nextOf r).map (·.payload) = some [0x41] := by decide

/-- Row VB3. -/
theorem test_txrd_vb3 : saysOf (exec (.txrd 6) sentState) = some [.txrd 0x05] := by decide
/-- Row VB6: the index does not wrap. -/
theorem test_txrd_vb6 : saysOf (exec (.txrd 65535) sentState) = some [.error .range] := by decide

/-- Row VB18. -/
theorem test_rxclr_vb18 :
    let r := exec .rxclr { rxlenState 256 with rxovf := true }
    regsOf r = some (0, 0, 0, false) ∧ saysOf r = some [.rxclr 0] := by decide

/-- Row VB14: the 256th byte. -/
theorem test_rxpush_vb14 :
    let r := exec (.rxpush 0x03) (rxlenState 255)
    regsOf r = some (0, 0, 256, false) ∧ saysOf r = some [.rxpush 256] ∧
      rxOf 255 1 r = some [some 0x03] := by decide

/-- Row VB15. -/
theorem test_rxpush_vb15 :
    let r := exec (.rxpush 0x55) (rxlenState 256)
    regsOf r = some (0, 0, 256, true) ∧ saysOf r = some [.error .rxOverflow] ∧
      rxOf 255 2 r = some [some 0x03, none] := by decide

/-- Row VB17. -/
theorem test_rxrd_vb17 :
    saysOf (exec (.rxrd 255) { rxlenState 256 with rxovf := true }) = some [.rxrd 0x03] := by decide
/-- Row VB13: the stale byte is not returned. -/
theorem test_rxrd_vb13 :
    saysOf (exec (.rxrd 0) { State.reset with rxbuf := [(0, 0x02)] }) = some [.error .range] := by
  decide

/-- Row VC5: markers wrong, verdict 1. -/
theorem test_verify_vc5 :
    saysOf (exec .verify (rxState [0x03, 0x05, 0x00, 0x02, 0x41, 0x42, 0x05, 0x02])) =
      some [.verify true] := by decide
/-- Row VC9: ETX lost, cell 5 is taken as the checksum. -/
theorem test_verify_vc9 :
    saysOf (exec .verify (rxState [0x02, 0x05, 0x00, 0x02, 0x41, 0x42, 0x05])) =
      some [.verify false] := by decide

/-- Row VD10. -/
theorem test_decode_vd10 :
    saysOf (exec .decode (rxState [0x03, 0x05, 0x00, 0x02, 0x41, 0x42, 0x05, 0x02])) =
      some [.decode 8 0x05 0x00 0x02 0x05 0x1C] := by decide
/-- R84: RXOVF sets bit 5 and clears bit 6 and nothing else, as in row VD22 (here on V1's frame). -/
theorem test_decode_overflow :
    saysOf (exec .decode { rxState v1Frame with rxovf := true }) =
      some [.decode 8 0x05 0x00 0x02 0x05 0x3F] := by decide

/-- Log 3, R92: the four bytes of V1's header. -/
theorem test_frame_enq :
    let r := exec (.frameEnq 0x00 0x02) State.reset
    regsOf r = some (0, 0, 4, false) ∧ rxOf 0 4 r = some ([0x02, 0x05, 0x00, 0x02].map some) := by decide
/-- Log 3: the header of VE6. -/
theorem test_frame_ack :
    rxOf 0 4 (exec (.frameAck 0x01 0x00) State.reset) = some ([0x02, 0x06, 0x01, 0x00].map some) := by
  decide
/-- Log 3: the header of VE7. -/
theorem test_frame_nak :
    rxOf 0 4 (exec (.frameNak 0x00 0x00) State.reset) = some ([0x02, 0x15, 0x00, 0x00].map some) := by
  decide
/-- Log 3: the header of VE19. -/
theorem test_frame_any :
    rxOf 0 4 (exec (.frameAny 0x7E 0x00 0x00) State.reset) = some ([0x02, 0x7E, 0x00, 0x00].map some) := by
  decide
/-- Log 3, R92, R93: with room for one byte the second is dropped. -/
theorem test_frame_trailer_overflows :
    let r := exec (.frameTrailer 0x05) { State.reset with rxlen := 255 }
    regsOf r = some (0, 0, 256, true) ∧ saysOf r = some [.rxpush 256, .error .rxOverflow] ∧
      rxOf 255 1 r = some [some 0x05] := by decide

/-! ## Notation (R46, R55) -/

/-- "ENCODE 0x05, n = 2" is written `1050002`; the lines of R55. -/
theorem test_notation :
    opWordText (lenw := 16) 0x1050002 = "1050002" ∧ instrText [0x41, 0x42] (.encode 0x05 2) = "ENCODE 0x05, [41 42]" ∧
    instrText [] (.encode 0x05 251) = "ENCODE 0x05, n=251" ∧ instrText [] (.rxpush 0xAB) = "RXPUSH 0xAB" ∧
    eventText [] .reset = "RESET" := by decide

/-! ## Concrete states that meet the invariants -/

/-- RXBUF of `rxState bs` holds `bs`. -/
theorem rxHolds_rxState {bs : List Byte} (h : bs.length ≤ 256 := by decide) :
    rxHolds (rxState bs) bs := by
  refine ⟨?_, h, holdsFrom_fillCells [] bs⟩
  change bs.length = (BitVec.ofNat 9 bs.length).toNat
  rw [BitVec.toNat_ofNat]
  omega

/-- The invariants hold with any bytes received, and with the flag set when the buffer is full. -/
theorem blockInv_rxState {bs : List Byte} (h : bs.length ≤ 256) (ovf : Bool)
    (ho : ovf = true → bs.length = 256) : BlockInv { rxState bs with rxovf := ovf } := by
  obtain ⟨hl, -, hh⟩ := rxHolds_rxState h
  exact
    { seqctr_le := (by decide : (0 : Byte).toNat ≤ 254)
      txlen_legal := .inl rfl
      rxlen_le := hl ▸ h
      tx_frame := fun h0 => absurd (h0 : 0 < 0) (Nat.lt_irrefl 0)
      tx_written := fun a ha => absurd ha (Nat.not_lt_zero a)
      rx_written := fun a ha => by
        have ha' : a < bs.length := hl ▸ ha
        change (cellAt (rxState bs).rxbuf a).isSome
        rw [hh a ha', List.getElem?_eq_getElem ha']
        rfl
      ovf_full := fun h1 => hl ▸ ho h1
      tx_wf := rfl
      rx_wf := bufferWf_fillCells bs rfl (by simpa [Config.bufSize] using h)
      flight_waits := fun fl hfl => by cases hfl
      flight_reset := fun fl hfl => by cases hfl }

/-- The invariants say nothing of what HOST does next. -/
theorem blockInv_host {s : State} (h : BlockInv s) (l : List HostEvent) : BlockInv { s with host := l } :=
  { h with }

/-- The invariants hold after V1's ENCODE. -/
theorem blockInv_sentState : BlockInv sentState where
  seqctr_le := by decide
  txlen_legal := by decide
  rxlen_le := by decide
  tx_frame := by decide
  tx_written := by decide
  rx_written := by decide
  ovf_full := by decide
  tx_wf := by decide
  rx_wf := by decide
  flight_waits := fun fl hfl => by cases hfl
  flight_reset := fun fl hfl => by cases hfl

/-! ## Witnesses: the step, reset and the invariants -/

/-- A full buffer after a refused push, the top of RXLEN's range (row VD22). -/
def fullState : State := { rxState ve15Frame with rxovf := true }

theorem ve15_length : ve15Frame.length = 256 := by simp [ve15Frame]

theorem ve15_holds : rxHolds (rxState ve15Frame) ve15Frame := rxHolds_rxState (by simp [ve15_length])

theorem fullState_rxlen : fullState.rxlen.toNat = 256 := ve15_holds.1.symm.trans ve15_length

theorem blockInv_fullState : BlockInv fullState :=
  blockInv_rxState (by simp [ve15_length]) true fun _ => ve15_length

/-- A state with an ENCODE that waits for 250 bytes and one byte short of them. -/
def waitState (host : List HostEvent) : State :=
  { State.reset with
    flight := some { flag := 0x05, n := 250, got := [] }
    payload := same 249 0xFF
    host := host }

theorem witness_ResetClearsRegisters :
    let s := { fullState with host := [.reset, .reset] }
    s.flight = none ∧ s.host = .reset :: [.reset] := ⟨rfl, rfl⟩

/-- A wait that a reset ends at once, one that a reset behind a held word ends, and an operation
abandoned. -/
theorem witness_ResetAbandonsOperation :
    (∃ fl, (waitState [.reset]).flight = some fl ∧
      ((waitState [.reset]).wasReset = true →
        fl.got.length + (waitState [.reset]).payload.length < fl.n) ∧
      (waitState [.reset]).host = .reset :: []) ∧
    (let s := waitState [.present (.opword 16 0x3000000), .reset];
      ∃ fl, s.wasReset = true ∧ s.flight = some fl ∧ fl.got.length + s.payload.length < fl.n ∧
        s.host.head? ≠ some .breakHandshake ∧ HostEvent.reset ∈ s.host) ∧
    (let s := { payState 254 [] with host := [.abandon (.opword 16 0x1050000)] };
      s.flight = none ∧ s.host = .abandon (.opword 16 0x1050000) :: []) :=
  ⟨⟨_, rfl, by simp [waitState], rfl⟩, ⟨_, rfl, rfl, by simp [waitState], by decide, by decide⟩, rfl, rfl⟩

/-- A step that runs an ENCODE, one that runs an RXPUSH, and an idle one, from a standing frame. -/
theorem witness_StepKeepsInvariants :
    (BlockInv { sentState with host := [.present (.opword 16 0x1050000)] } ∧
      ∃ t, step { sentState with host := [.present (.opword 16 0x1050000)] } = .next t) ∧
    (BlockInv { sentState with host := [.present (.opword 16 0x4550000)] } ∧
      ∃ t, step { sentState with host := [.present (.opword 16 0x4550000)] } = .next t) ∧
    BlockInv sentState ∧ ∃ t, step sentState = .next t :=
  ⟨⟨blockInv_host blockInv_sentState _, _, rfl⟩, ⟨blockInv_host blockInv_sentState _, _, rfl⟩,
    blockInv_sentState, _, rfl⟩

theorem witness_StepNeverFaults : BlockInv fullState ∧ BlockInv sentState :=
  ⟨blockInv_fullState, blockInv_sentState⟩

theorem witness_EveryOperationAnswers :
    (BlockInv fullState ∧ fullState.flight = none) ∧ BlockInv sentState ∧ sentState.flight = none :=
  ⟨⟨blockInv_fullState, rfl⟩, blockInv_sentState, rfl⟩

/-- A step with a word to run, and the least LENW. -/
theorem witness_StepRunsDecodedWord :
    (let s := { fullState with host := [.present (.header 0x02000301)] };
      s.wasReset = true ∧ s.flight = none ∧ s.host = .present (.header 0x02000301) :: [] ∧
        decode (.header 0x02000301) = .ok (.frameAny 0x00 0x03 0x01)) ∧ 9 ≤ 9 := by decide

theorem witness_IdleBlockKeepsState : sentState.flight = none ∧ sentState.host = [] := by decide

/-- Each of the clauses; the words are one bit off STX, off ETX, and one bit short of the least LENW. -/
theorem witness_MeaninglessRunsRefused :
    (let s := { State.reset with host := [.breakHandshake] };
      s.flight = none ∧ s.host = .breakHandshake :: []) ∧
    (∃ fl, (waitState [.breakHandshake]).wasReset = true ∧
      (waitState [.breakHandshake]).flight = some fl ∧
      fl.got.length + (waitState [.breakHandshake]).payload.length < fl.n ∧
      (waitState [.breakHandshake]).host = .breakHandshake :: []) ∧
    (let s := { State.reset with wasReset := false, host := [.present (.opword 16 0)] };
      s.wasReset = false ∧ s.flight = none ∧ s.host = .present (.opword 16 0) :: []) ∧
    (let s := { waitState [.breakHandshake] with wasReset := false };
      ∃ fl, s.wasReset = false ∧ s.flight = some fl ∧ s.host.head? ≠ some .reset) ∧
    (let s := { State.reset with host := [.present (.header (packHeader 0x03 0x05 0x00 0x02))] };
      s.wasReset = true ∧ s.flight = none ∧ (0x03 : Byte) ≠ 0x02 ∧
        s.host = .present (.header (packHeader 0x03 0x05 0x00 0x02)) :: []) ∧
    (let s := { State.reset with host := [.present (.trailer (packTrailer 0x05 0x02))] };
      s.wasReset = true ∧ s.flight = none ∧ (0x02 : Byte) ≠ 0x03 ∧
        s.host = .present (.trailer (packTrailer 0x05 0x02)) :: []) ∧
    (let s := { State.reset with host := [.present (.opword 8 0x30000)] };
      s.wasReset = true ∧ s.flight = none ∧ 8 < 9 ∧ s.host = .present (.opword 8 0x30000) :: []) :=
  ⟨by decide, ⟨_, rfl, rfl, by simp [waitState], rfl⟩, by decide, ⟨_, rfl, rfl, by decide⟩, by decide,
    by decide, by decide⟩

/-! ## Witnesses: encodings -/

theorem witness_DecodeAfterEncode :
    (Instr.frameAny 0x04 0xFF 0xFF).wf = true ∧ (Instr.frameAny 0x16 0 0).wf = true ∧
      (Instr.encode 0xFF 65535).wf = true ∧ (Instr.frameTrailer 0x03).wf = true ∧
      (9 ≤ 9 ∧ (Instr.rxrd 511).wfAt 9 = true) := by decide

/-- Both sides of the equivalence: ENCODE words that differ in a used field, TXRD words that differ in
an ignored one (row VB7); and the clause about ignored fields on words that ignore them. -/
theorem witness_IgnoredFieldsChangeNothing :
    decodeOp (lenw := 16) 0x2AB0006 = decodeOp (lenw := 16) 0x2000006 ∧
      decodeOp (lenw := 16) 0x1AB0006 ≠ decodeOp (lenw := 16) 0x1000006 ∧
      opCode (lenw := 16) 0x2AB0006 ≠ 1 ∧ opCode (lenw := 16) 0x2AB0006 ≠ 4 ∧
      opCode (lenw := 16) 0x3FFFFFF = 3 := by decide

theorem witness_DecodedWordIsInItsRow :
    decode (.opword 16 0x7FFFFFF) = .ok .decode ∧
      decode (.header 0x02160000) = .ok (.frameAny 0x16 0 0) ∧
      decode (.trailer 0xFF03) = .ok (.frameTrailer 0xFF) := by decide

/-- The ends of the ranges at LENW = 9 and LENW = 16. -/
theorem witness_OperationWordFields :
    (9 ≤ 9 ∧ 7 < 8 ∧ 255 < 256 ∧ 511 < 2 ^ 9) ∧ (9 ≤ 16 ∧ 0 < 8 ∧ 0 < 256 ∧ 65535 < 2 ^ 16) := by decide

/-! ## Witnesses: the transmit side -/

theorem witness_EncodeTooLargeFails : 250 < (251 : Nat) ∧ 250 < (65535 : Nat) := by
  decide

/-- The longest payload, all there, and the empty one. -/
theorem witness_EncodeBuildsFrame :
    ((250 : Nat) ≤ 250 ∧
      (250 : Nat) ≤ (payState 254 (same 250 0xA5)).payload.length) ∧
    ((0 : Nat) ≤ 250 ∧ (0 : Nat) ≤ (payState 7 []).payload.length) := by
  simp [payState]

theorem witness_EncodeChecksumClosedForm :
    ((250 : Nat) ≤ 250 ∧
      (250 : Nat) ≤ (payState 10 (same 251 0xFF)).payload.length) ∧
    ((0 : Nat) ≤ 250 ∧ (0 : Nat) ≤ (payState 7 []).payload.length) := by
  simp [payState]

theorem witness_StandingFrameFoldsToZero :
    ((250 : Nat) ≤ 250 ∧ (250 : Nat) ≤ (payState 254 (same 250 0xA5)).payload.length) ∧
    ((0 : Nat) ≤ 250 ∧ (0 : Nat) ≤ (payState 7 []).payload.length) := by
  simp [payState]

theorem witness_EncodeWaitsForPayload :
    ((250 : Nat) ≤ 250 ∧
      (payState 0 (same 249 0x00)).payload.length < (250 : Nat)) ∧
    ((1 : Nat) ≤ 250 ∧ (payState 0 []).payload.length < (1 : Nat)) := by
  simp [payState]

theorem witness_PayloadGapsUnobservable :
    State.reset.wasReset = true ∧ (2 : Nat) ≤ 250 ∧ ([0x41] : List Byte).length < (2 : Nat) ∧
      (2 : Nat) ≤ ([0x41] ++ [0x42, 0x43] : List Byte).length := by decide

theorem witness_WaitingEncodeBlocksPort :
    let s := waitState [.present (.opword 16 0x3000000)]
    ∃ fl, s.wasReset = true ∧ s.flight = some fl ∧ fl.got.length + s.payload.length < fl.n ∧
      HostEvent.reset ∉ s.host ∧ s.host.head? ≠ some .breakHandshake :=
  ⟨_, rfl, rfl, by simp [waitState], by decide, by decide⟩

/-- The last cell of the frame, and the first beyond it. -/
theorem witness_TxrdReadsCell :
    BlockInv sentState ∧ (7 : Nat) < sentState.txlen.toNat ∧
      sentState.txlen.toNat ≤ (8 : Nat) :=
  ⟨blockInv_sentState, by decide, by decide⟩

theorem witness_OnlyBuiltFramesStepCounter :
    (∃ t, exec (.encode 0x05 0) (payState 254 []) = .next t) ∧
    (∃ t, exec (.encode 0x05 251) (payState 254 []) = .next t) ∧ ∃ t, exec .rxclr sentState = .next t :=
  ⟨⟨_, rfl⟩, ⟨_, rfl⟩, _, rfl⟩

/-- A start at 254, so that the run passes the wrap. -/
theorem witness_SuccessiveFramesCountModulo255 :
    (payState 254 []).seqctr.toNat ≤ 254 ∧
      (∀ f ∈ ([(0x05, []), (0x06, same 250 0)] : List (Byte × List Byte)), f.2.length ≤ 250) ∧
      (same 250 0xFF).length ≤ 250 := by
  simp [payState]

theorem witness_DrainGivesFrameInOrder :
    (same 250 0xFF).length ≤ 250 ∧ ([] : List Byte).length ≤ 250 := by
  simp

/-! ## Witnesses: the receive side -/

theorem witness_RxpushAppendsByte :
    (rxlenState 255).rxlen.toNat < 256 ∧ State.reset.rxlen.toNat < 256 := by decide

theorem witness_RxpushOnFullBufferDrops :
    (rxlenState 256).rxlen.toNat = 256 ∧
    (fullState.rxovf = true ∧ Instr.rxpush 0x55 ≠ .rxclr ∧
      ∃ t, exec (.rxpush 0x55) fullState = .next t) ∧
    gives .decode (rxState v1Frame) (.decode 8 0x05 0x00 0x02 0x05 0x5F) :=
  ⟨by decide, ⟨rfl, by decide, _, pushByte_full (s := fullState) 0x55 fullState_rxlen⟩,
    gives_of (by decide)⟩

/-- A refused push sets the flag, so does a trailer row whose second byte finds no room; RXCLR clears
it. -/
theorem witness_OverflowFlagWriters :
    (∃ t, exec (.rxpush 0x55) (rxlenState 256) = .next t ∧ t.rxovf ≠ (rxlenState 256).rxovf) ∧
    (∃ t, exec (.frameTrailer 0x05) (rxlenState 255) = .next t ∧ t.rxovf ≠ (rxlenState 255).rxovf) ∧
    ∃ t, exec .rxclr fullState = .next t ∧ t.rxovf ≠ fullState.rxovf :=
  ⟨⟨_, rfl, by decide⟩, ⟨_, rfl, by decide⟩, _, rfl, by decide⟩

/-- The last cell there is, the first index beyond it, and an empty buffer. -/
theorem witness_RxrdReadsCell :
    (BlockInv fullState ∧ (255 : Nat) < fullState.rxlen.toNat ∧
      fullState.rxlen.toNat ≤ (256 : Nat)) ∧
    BlockInv sentState ∧ sentState.rxlen.toNat ≤ (0 : Nat) :=
  ⟨⟨blockInv_fullState, by simp [fullState_rxlen], by simp [fullState_rxlen]⟩, blockInv_sentState,
    by decide⟩

theorem witness_RxloadHoldsBytes : ve15Frame.length ≤ 256 ∧ ([] : List Byte).length ≤ 256 := by
  simp [ve15_length]

/-- Two bytes, the least, and 256, the most. -/
theorem witness_VerifyComparesChecksum :
    (rxHolds (rxState [0x01, 0x02]) [0x01, 0x02] ∧ 2 ≤ ([0x01, 0x02] : List Byte).length) ∧
    rxHolds (rxState ve15Frame) ve15Frame ∧ 2 ≤ ve15Frame.length :=
  ⟨⟨rxHolds_rxState, by decide⟩, ve15_holds, by simp [ve15_length]⟩

theorem witness_VerifyShortBuffers :
    (rxState [0x02]).rxlen.toNat < 2 ∧ State.reset.rxlen.toNat < 2 ∧
      rxHolds (rxState [0x03, 0x03]) [0x03, 0x03] :=
  ⟨by decide, by decide, rxHolds_rxState⟩

theorem witness_VerifyIsZeroFold :
    (2 ≤ (rxState [0x00, 0x00]).rxlen.toNat ∧ ∃ t, exec .verify (rxState [0x00, 0x00]) = .next t) ∧
    2 ≤ (rxState [0x01, 0x02]).rxlen.toNat ∧ ∃ t, exec .verify (rxState [0x01, 0x02]) = .next t :=
  ⟨⟨by decide, _, rfl⟩, by decide, _, rfl⟩

/-- V1's frame gets the verdict 1. -/
theorem v1_verifies :
    exec .verify (rxState v1Frame) =
      .next { rxState v1Frame with responses := (rxState v1Frame).responses ++ [.verify true] } := rfl

/-- The masks of row VC4 (two flips that cancel) and of row VC2 (one flip). -/
theorem witness_VerifyDetectsOddFlips :
    rxHolds (rxState v1Frame) v1Frame ∧ 2 ≤ v1Frame.length ∧
    (exec .verify (rxState v1Frame) =
      .next { rxState v1Frame with responses := (rxState v1Frame).responses ++ [.verify true] }) ∧
    (let masks : List Byte := [0, 0, 0, 0, 0x10, 0x10, 0, 0];
      masks.length = v1Frame.length ∧
        rxHolds (rxState (flipped v1Frame masks)) (flipped v1Frame masks)) ∧
    (let masks : List Byte := [0, 0, 0, 0, 0x01, 0, 0, 0];
      masks.length = v1Frame.length ∧
        rxHolds (rxState (flipped v1Frame masks)) (flipped v1Frame masks)) :=
  ⟨rxHolds_rxState, by decide, v1_verifies, ⟨by decide, rxHolds_rxState⟩,
    by decide, rxHolds_rxState⟩

/-- Row VC2, and a change of the last cell. -/
theorem witness_VerifyDetectsOneChangedCell :
    rxHolds (rxState v1Frame) v1Frame ∧ 2 ≤ v1Frame.length ∧
    (exec .verify (rxState v1Frame) =
      .next { rxState v1Frame with responses := (rxState v1Frame).responses ++ [.verify true] }) ∧
    (4 < v1Frame.length ∧ v1Frame[4]? ≠ some 0x40 ∧
      rxHolds (rxState (v1Frame.set 4 0x40)) (v1Frame.set 4 0x40)) ∧
    (7 < v1Frame.length ∧ v1Frame[7]? ≠ some 0x83 ∧
      rxHolds (rxState (v1Frame.set 7 0x83)) (v1Frame.set 7 0x83)) :=
  ⟨rxHolds_rxState, by decide, v1_verifies,
    ⟨by decide, by decide, rxHolds_rxState⟩, by decide, by decide,
    rxHolds_rxState⟩

/-- Row VC7: two payload bytes swapped. -/
theorem witness_VerifyMissesReordering :
    let swapped : List Byte := [0x02, 0x05, 0x00, 0x02, 0x42, 0x41, 0x05, 0x03]
    rxHolds (rxState v1Frame) v1Frame ∧ 2 ≤ v1Frame.length ∧ rxHolds (rxState swapped) swapped ∧
    v1Frame.Perm swapped ∧
    exec .verify (rxState v1Frame) =
      .next { rxState v1Frame with responses := (rxState v1Frame).responses ++ [.verify true] } :=
  ⟨rxHolds_rxState, by decide, rxHolds_rxState, by decide, v1_verifies⟩

/-- Row VC10 (a 00 appended), and the least length with the run of row VC16. -/
theorem witness_VerifyMissesZeroRuns :
    (xorBytes [0x00] = 0 ∧ 2 ≤ (v1Frame ++ []).length ∧
      rxHolds (rxState (v1Frame ++ [])) (v1Frame ++ []) ∧
      rxHolds (rxState (v1Frame ++ [0x00] ++ [])) (v1Frame ++ [0x00] ++ [])) ∧
    (xorBytes [0x03, 0x03] = 0 ∧ 2 ≤ ([0x01] ++ [0x02] : List Byte).length ∧
      rxHolds (rxState ([0x01] ++ [0x02])) ([0x01] ++ [0x02]) ∧
      rxHolds (rxState ([0x01] ++ [0x03, 0x03] ++ [0x02])) ([0x01] ++ [0x03, 0x03] ++ [0x02])) :=
  ⟨⟨by decide, by decide, rxHolds_rxState, rxHolds_rxState⟩, by decide,
    by decide, rxHolds_rxState, rxHolds_rxState⟩

/-- Six bytes, the least (row VC12), and 256, the most. -/
theorem witness_DecodeReportsFields :
    (rxHolds (rxState [0x02, 0x05, 0x00, 0x00, 0x04, 0x03]) [0x02, 0x05, 0x00, 0x00, 0x04, 0x03] ∧
      6 ≤ ([0x02, 0x05, 0x00, 0x00, 0x04, 0x03] : List Byte).length) ∧
    rxHolds (rxState ve15Frame) ve15Frame ∧ 6 ≤ ve15Frame.length :=
  ⟨⟨rxHolds_rxState, by decide⟩, ve15_holds, by simp [ve15_length]⟩

theorem witness_DecodeRunt :
    (rxState [0x02, 0x05, 0x00, 0x02, 0x41]).rxlen.toNat < 6 ∧ State.reset.rxlen.toNat < 6 := by
  decide

/-- Both sides of the equivalence: a frame (VE15) and zeros (row VD17), which are none. -/
theorem witness_FrameOkMeansEncodableFrame :
    (rxHolds (rxState ve15Frame) ve15Frame ∧ 6 ≤ ve15Frame.length ∧
      ve15Frame = frameBytes 0x05 0x0A (same 250 0x00)) ∧
    rxHolds (rxState (same 6 0)) (same 6 0) ∧
      6 ≤ (same 6 0).length :=
  ⟨⟨ve15_holds, by simp [ve15_length], by decide +kernel⟩, rxHolds_rxState, by decide⟩

/-- Rows VC1 with VD1, and VC2 with VD7. -/
theorem witness_DecodeChecksumBitIsVerdict :
    (gives .verify (rxState v1Frame) (.verify true) ∧
      gives .decode (rxState v1Frame) (.decode 8 0x05 0x00 0x02 0x05 0x5F)) ∧
    gives .verify (rxState (v1Frame.set 4 0x40)) (.verify false) ∧
      gives .decode (rxState (v1Frame.set 4 0x40)) (.decode 8 0x05 0x00 0x02 0x05 0x17) := by
  refine ⟨⟨?_, ?_⟩, ?_, ?_⟩ <;> exact gives_of (by decide)

/-- Row VC11, and the longest pair there is room for. -/
theorem witness_TwoFramesVerifyAsOne :
    (let bs := frameBytes 0x05 0x00 [0x41, 0x42] ++ frameBytes 0x05 0x01 [0x41, 0x42];
      ([0x41, 0x42] : List Byte).length ≤ 250 ∧ rxHolds (rxState bs) bs) ∧
    (let bs := frameBytes 0x05 0x00 (same 244 0x00) ++ frameBytes 0x05 0x01 [];
      (same 244 0x00).length ≤ 250 ∧ ([] : List Byte).length ≤ 250 ∧
        rxHolds (rxState bs) bs) :=
  ⟨⟨by decide, rxHolds_rxState⟩, by simp, by simp, rxHolds_rxState (by simp)⟩

theorem witness_LoopbackRoundTrip :
    (same 250 0xFF).length ≤ 250 ∧ ([] : List Byte).length ≤ 250 := by
  simp

/-! ## Witnesses: the wire rows and the rules over all operations -/

/-- Room for just four bytes, and each of the four forms. -/
theorem witness_HeaderRowsComplete :
    (rxlenState 252).rxlen.toNat + 4 ≤ 256 ∧
    (∀ i ∈ [Instr.frameEnq 1 2, .frameAck 1 2, .frameNak 1 2, .frameAny 0xFF 1 2],
      ∃ flag, (i = .frameEnq 1 2 ∧ flag = 0x05) ∨ (i = .frameAck 1 2 ∧ flag = 0x06) ∨
        (i = .frameNak 1 2 ∧ flag = 0x15) ∨ i = .frameAny flag 1 2) := by
  refine ⟨by decide, fun i hi => ?_⟩
  simp only [List.mem_cons, List.not_mem_nil, or_false] at hi
  rcases hi with rfl | rfl | rfl | rfl
  · exact ⟨0x05, .inl ⟨rfl, rfl⟩⟩
  · exact ⟨0x06, .inr (.inl ⟨rfl, rfl⟩)⟩
  · exact ⟨0x15, .inr (.inr (.inl ⟨rfl, rfl⟩))⟩
  · exact ⟨0xFF, .inr (.inr (.inr rfl))⟩

theorem witness_TrailerRowCompletes : (rxlenState 254).rxlen.toNat + 2 ≤ 256 := by decide

theorem witness_ArrivedFrameIsReportedGood :
    (same 250 0xFF).length ≤ 250 ∧ ([] : List Byte).length ≤ 250 := by
  simp

/-- Each of the four reading operations. -/
theorem witness_ReadsHaveNoSideEffects :
    (isReader (.txrd 0) = true ∧ ∃ t, exec (.txrd 0) sentState = .next t) ∧
    (isReader (.rxrd 8) = true ∧ ∃ t, exec (.rxrd 8) (rxState v1Frame) = .next t) ∧
    (isReader .verify = true ∧ ∃ t, exec .verify (rxState v1Frame) = .next t) ∧
    isReader .decode = true ∧ ∃ t, exec .decode (rxState v1Frame) = .next t :=
  ⟨⟨rfl, _, rfl⟩, ⟨rfl, _, rfl⟩, ⟨rfl, _, rfl⟩, rfl, _, rfl⟩

theorem witness_SidesTouchDisjointState :
    (isReceiver (.rxpush 0x55) = true ∧ ∃ t, exec (.rxpush 0x55) sentState = .next t) ∧
    isSender (.encode 0x05 0) = true ∧ ∃ t, exec (.encode 0x05 0) fullState = .next t :=
  ⟨⟨rfl, _, rfl⟩, rfl, _, rfl⟩

theorem witness_SenderAndReceiverCommute :
    isSender (.encode 0x05 1) = true ∧ isReceiver (.frameTrailer 0x05) = true ∧
      (∃ a, exec (.encode 0x05 1) (payState 254 [0xFF]) = .next a) ∧
      ∃ b, exec (.frameTrailer 0x05) (payState 254 [0xFF]) = .next b :=
  ⟨rfl, rfl, ⟨_, rfl⟩, _, rfl⟩

/-- A TXRD, and an ENCODE of 251 bytes with payload standing at the port. -/
theorem witness_OnlyEncodeTakesPayload :
    ((∃ t, exec (.txrd 0) sentState = .next t) ∧
      ∀ flag n, Instr.txrd 0 = .encode flag n → 250 < n) ∧
    (∃ t, exec (.encode 0x05 251) (payState 0 [0x41]) = .next t) ∧
      ∀ flag n, Instr.encode 0x05 251 = .encode flag n → 250 < n :=
  ⟨⟨⟨_, rfl⟩, fun _ _ h => by cases h⟩, ⟨_, rfl⟩, fun _ _ h => by cases h; decide⟩

/-- Each of the seven error responses, at the edge of its condition. -/
theorem witness_ErrorsChangeOnlyWhatTheyList :
    gives .illegal State.reset (.error .illegalOp) ∧
    gives (.encode 0x05 251) sentState (.error .payloadTooLarge) ∧
    gives (.txrd 8) sentState (.error .range) ∧
    gives (.rxrd 1) (rxState [0x02]) (.error .range) ∧
    gives (.rxpush 0) (rxlenState 256) (.error .rxOverflow) ∧
    gives .verify (rxState [0x02]) (.error .runt) ∧
    gives .decode (rxState [0, 0, 0, 0, 0]) (.error .runt) := by
  refine ⟨?_, ?_, ?_, ?_, ?_, ?_, ?_⟩ <;> exact gives_of (by decide)

/-- The same hypotheses as those of ErrorsChangeOnlyWhatTheyList. -/
theorem witness_ErrorsOnlyUnderTheirCondition :
    gives (.encode 0x05 65535) sentState (.error .payloadTooLarge) ∧
    gives (.txrd 65535) sentState (.error .range) ∧ gives .verify State.reset (.error .runt) := by
  refine ⟨?_, ?_, ?_⟩ <;> exact gives_of (by decide)

/-- No response, and a response of each shape. -/
theorem witness_PinsCarryListedFields :
    State.reset.responses = [] ∧ ∀ r ∈ [Response.encode 256, .txrd 0xFF, .rxclr 0, .rxpush 256, .rxrd 0, .verify true,
        .decode 8 0x05 0x00 0x02 0x05 0x5F, .error .payloadTooLarge, .error .range, .error .runt,
        .error .rxOverflow, .error .illegalOp],
      ({ State.reset with responses := [r] } : State).responses = [r] := ⟨rfl, fun _ _ => rfl⟩

end Sys2Proof.Machine
end

section
/-! PROOFS. The decoder on a packed word of each format, and the statements of spec/00_scope.md. -/

namespace Sys2Proof

/-! ## Operation words -/

/-- The operation of an op code with its two operand fields (R47): `decodeOp` as a function of the fields. -/
def instrOfFields (code : Nat) (arg8 : Byte) (n : Nat) : Instr :=
  match code with
  | 0 => .illegal
  | 1 => .encode arg8 n
  | 2 => .txrd n
  | 3 => .rxclr
  | 4 => .rxpush arg8
  | 5 => .rxrd n
  | 6 => .verify
  | _ => .decode

theorem decodeOp_eq_instrOfFields {lenw : Nat} (w : OpWord lenw) :
    decodeOp w = instrOfFields (opCode w).toNat (opArg8 w) (opArg16 w).toNat := rfl

@[simp] theorem decodeOp_packOp {lenw : Nat} (c : BitVec 3) (a : Byte) (n : BitVec lenw) :
    decodeOp (packOp c a n) = instrOfFields c.toNat a n.toNat := by
  rw [decodeOp_eq_instrOfFields, opCode_packOp, opArg8_packOp, opArg16_packOp]

theorem decode_opword {lenw : Nat} (w : OpWord lenw) (h : 9 ≤ lenw) :
    decode (.opword lenw w) = .ok (decodeOp w) := if_neg (Nat.not_lt.mpr h)

/-- The number operand is not truncated where it fits (R48). -/
theorem decode_opwordOf {lenw n : Nat} (c : BitVec 3) (a : Byte) (h : 9 ≤ lenw) (hn : n < 2 ^ lenw) :
    decode (opwordOf lenw c a n) = .ok (instrOfFields c.toNat a n) := by
  rw [opwordOf, decode_opword _ h, decodeOp_packOp, BitVec.toNat_ofNat, Nat.mod_eq_of_lt hn]

/-- The packed form of the opcode table, as a number (R46). -/
theorem ofNat_eq_packOp {lenw c a n : Nat} (hc : c < 8) (ha : a < 256) (hn : n < 2 ^ lenw) :
    BitVec.ofNat (3 + 8 + lenw) ((c * 256 + a) * 2 ^ lenw + n) =
      packOp (BitVec.ofNat 3 c) (BitVec.ofNat 8 a) (BitVec.ofNat lenw n) := by
  have hval : (packOp (BitVec.ofNat 3 c) (BitVec.ofNat 8 a) (BitVec.ofNat lenw n)).toNat =
      (c * 256 + a) * 2 ^ lenw + n := by
    rw [packOp_toNat, BitVec.toNat_ofNat, BitVec.toNat_ofNat, BitVec.toNat_ofNat,
      Nat.mod_eq_of_lt hc, Nat.mod_eq_of_lt ha, Nat.mod_eq_of_lt hn]
    rfl
  rw [← hval, BitVec.ofNat_toNat, BitVec.setWidth_eq]

/-! ## Wire words -/

theorem decodeHeader_packHeader (b0 b1 b2 b3 : Byte) :
    decodeHeader (packHeader b0 b1 b2 b3) =
      if b0 ≠ Config.stx then .error .headerWithoutStx
      else if b1 = Config.enq then .ok (.frameEnq b2 b3)
      else if b1 = Config.ack then .ok (.frameAck b2 b3)
      else if b1 = Config.nak then .ok (.frameNak b2 b3)
      else .ok (.frameAny b1 b2 b3) := by
  simp only [decodeHeader, headerByte_packHeader_0, headerByte_packHeader_1, headerByte_packHeader_2,
    headerByte_packHeader_3]

theorem decodeTrailer_packTrailer (c e : Byte) :
    decodeTrailer (packTrailer c e) =
      if e ≠ Config.etx then .error .trailerWithoutEtx else .ok (.frameTrailer c) := by
  rw [decodeTrailer, trailerEtx_packTrailer, trailerChecksum_packTrailer]

/-! ## Decoding what was encoded -/

theorem fitsLenw_iff {lenw n : Nat} : fitsLenw lenw n = true ↔ n < 2 ^ lenw := decide_eq_true_iff

theorem not_namedFlag_iff {flag : Byte} :
    (!namedFlag flag) = true ↔ flag ≠ Config.enq ∧ flag ≠ Config.ack ∧ flag ≠ Config.nak := by
  simp [namedFlag, and_assoc]

theorem decode_encodeAt {lenw : Nat} {i : Instr} (h : 9 ≤ lenw) (hi : i.wfAt lenw = true) :
    decode (encodeAt lenw i) = .ok i := by
  have h0 : 0 < 2 ^ lenw := Nat.two_pow_pos lenw
  cases i with
  | illegal => exact decode_opwordOf 0 0 h h0
  | encode flag n => exact decode_opwordOf 1 flag h (fitsLenw_iff.mp hi)
  | txrd i => exact decode_opwordOf 2 0 h (fitsLenw_iff.mp hi)
  | rxclr => exact decode_opwordOf 3 0 h h0
  | rxpush b => exact decode_opwordOf 4 b h h0
  | rxrd i => exact decode_opwordOf 5 0 h (fitsLenw_iff.mp hi)
  | verify => exact decode_opwordOf 6 0 h h0
  | decode => exact decode_opwordOf 7 0 h h0
  | frameEnq seq len => exact decodeHeader_packHeader Config.stx Config.enq seq len
  | frameAck seq len => exact decodeHeader_packHeader Config.stx Config.ack seq len
  | frameNak seq len => exact decodeHeader_packHeader Config.stx Config.nak seq len
  | frameAny flag seq len =>
    obtain ⟨henq, hack, hnak⟩ := not_namedFlag_iff.mp hi
    refine (decodeHeader_packHeader Config.stx flag seq len).trans ?_
    rw [if_neg (not_not.mpr rfl), if_neg henq, if_neg hack, if_neg hnak]
  | frameTrailer cs => exact decodeTrailer_packTrailer cs Config.etx

/-- Settles O10, by cases on the instruction: what was packed is taken out again, and the number operand
and the flag of FRAME.ANY are kept because the instruction is well formed. -/
theorem decodeAfterEncode : Obligations.DecodeAfterEncode :=
  ⟨fun _ hi => decode_encodeAt (lenw := Config.lenw) (by decide) hi,
    fun _ _ h hi => decode_encodeAt h hi⟩

/-- Settles O13: the number is the packed form of its three fields. -/
theorem operationWordFields : Obligations.OperationWordFields := by
  intro lenw c a n h hc ha hn
  rw [ofNat_eq_packOp hc ha hn]
  refine (decode_opwordOf (BitVec.ofNat 3 c) (BitVec.ofNat 8 a) h hn).trans ?_
  interval_cases c <;> rfl

end Sys2Proof

namespace Sys2Proof.Machine

/-! ## The step with no operation in flight -/

theorem step_of_flight_none {s : State} (h : s.flight = none) : step s = takeEvent (freshStep s) := by
  rw [step, runStep, h]

theorem takeEvent_present {s : State} {w : RawWord} {rest : List HostEvent}
    (h : s.host = .present w :: rest) : takeEvent s = acceptWord w { s with host := rest } := by
  rw [takeEvent, h]

theorem acceptWord_of_decode {s : State} {w : RawWord} {i : Instr} (hr : s.wasReset = true)
    (hd : decode w = .ok i) : acceptWord w s = exec i s := by
  rw [acceptWord, if_pos hr, hd]

/-- Settles O7: the step takes HOST's event, the event is a word, the word is accepted and decoded. -/
theorem stepRunsDecodedWord : Obligations.StepRunsDecodedWord := by
  refine ⟨fun s w rest i hr hf hh hd => ?_, fun _ w h => decode_opword w h⟩
  calc step s = takeEvent (freshStep s) := step_of_flight_none hf
    _ = acceptWord w { freshStep s with host := rest } := takeEvent_present hh
    _ = exec i { freshStep s with host := rest } := acceptWord_of_decode hr hd

end Sys2Proof.Machine
end

section
/-! PROOFS. What one operation and one step can do, said once; what each leaves of the invariants of R20;
the statements of spec/10_state.md. -/

namespace Sys2Proof.Machine

/-! ## What an operation can do -/

/-- The bytes an instruction pushes into RXBUF, in order: one for RXPUSH (R92), the bytes of the word for
a wire row (log 3). -/
def pushedBytes : Instr → Option (List Byte)
  | .rxpush b => some [b]
  | .frameEnq seq len => some (headerBytes Config.enq seq len)
  | .frameAck seq len => some (headerBytes Config.ack seq len)
  | .frameNak seq len => some (headerBytes Config.nak seq len)
  | .frameAny flag seq len => some (headerBytes flag seq len)
  | .frameTrailer cs => some (trailerBytes cs)
  | _ => none

/-- The operations that push: RXPUSH and the five wire rows. -/
theorem forms_of_pushedBytes {i : Instr} {bs : List Byte} (h : pushedBytes i = some bs) :
    (∃ b, i = .rxpush b) ∨ (∃ seq len, i = .frameEnq seq len) ∨ (∃ seq len, i = .frameAck seq len) ∨
      (∃ seq len, i = .frameNak seq len) ∨ (∃ flag seq len, i = .frameAny flag seq len) ∨
      ∃ cs, i = .frameTrailer cs := by
  cases i <;> simp [pushedBytes] at h ⊢

theorem pushBytes_singleton (b : Byte) (s : State) : pushBytes [b] s = pushByte b s := by
  rw [pushBytes]
  cases pushByte b s <;> rfl

theorem exec_of_pushedBytes {i : Instr} {bs : List Byte} (s : State) (h : pushedBytes i = some bs) :
    exec i s = pushBytes bs s := by
  cases i <;> cases h
  case rxpush b => exact (pushBytes_singleton b s).symm
  all_goals rfl

/-- Op code 0 and the four readers only answer (R32, R52). -/
theorem exec_only_answers {i : Instr} {s t : State} (hi : i = .illegal ∨ isReader i = true)
    (h : exec i s = .next t) : ∃ r, t = answer r s := by
  cases i with
  | illegal =>
    cases h
    exact ⟨_, rfl⟩
  | txrd i => obtain ⟨-, rfl⟩ | ⟨-, _, -, rfl⟩ := execTxrd_cases h <;> exact ⟨_, rfl⟩
  | rxrd i => obtain ⟨-, rfl⟩ | ⟨-, _, -, rfl⟩ := execRxrd_cases h <;> exact ⟨_, rfl⟩
  | verify => obtain ⟨-, rfl⟩ | ⟨-, _, _, -, -, rfl⟩ := execVerify_cases h <;> exact ⟨_, rfl⟩
  | decode =>
    obtain ⟨-, rfl⟩ | ⟨-, _, _, _, _, _, _, _, -, -, -, -, -, -, -, rfl⟩ := execDecode_cases h <;>
      exact ⟨_, rfl⟩
  | _ => simp [isReader] at hi

/-- Everything an operation can do: it only answers, it is ENCODE or RXCLR, or it pushes bytes. -/
theorem exec_cases {i : Instr} {s t : State} (h : exec i s = .next t) :
    ((i = .illegal ∨ isReader i = true) ∧ ∃ r, t = answer r s) ∨
    (∃ flag n, i = .encode flag n ∧ execEncode flag n s = .next t) ∨
    (i = .rxclr ∧ t = answer (.rxclr 0) { s with rxlen := 0, rxovf := false }) ∨
    ∃ bs, pushedBytes i = some bs ∧ pushBytes bs s = .next t := by
  cases i with
  | illegal => exact .inl ⟨.inl rfl, exec_only_answers (.inl rfl) h⟩
  | txrd _ | rxrd _ | verify | decode => exact .inl ⟨.inr rfl, exec_only_answers (.inr rfl) h⟩
  | encode flag n => exact .inr (.inl ⟨flag, n, rfl, h⟩)
  | rxclr =>
    cases h
    exact .inr (.inr (.inl ⟨rfl, rfl⟩))
  | rxpush _ | frameEnq _ _ | frameAck _ _ | frameNak _ _ | frameAny _ _ _ | frameTrailer _ =>
    exact .inr (.inr (.inr ⟨_, rfl, (exec_of_pushedBytes s rfl).symm.trans h⟩))

/-! ## What a step can do -/

/-- A word is accepted only after the first reset and when it decodes (R101, R138). -/
theorem acceptWord_cases {w : RawWord} {s t : State} (h : acceptWord w s = .next t) :
    s.wasReset = true ∧ ∃ i, decode w = .ok i ∧ exec i s = .next t := by
  unfold acceptWord at h
  split at h
  · next hr =>
    split at h
    · next i hd => exact ⟨hr, i, hd, h⟩
    · cases h
  · cases h

/-- Everything HOST's next event can do with no operation in flight. -/
theorem takeEvent_cases {s t : State} (h : takeEvent s = .next t) :
    (s.host = [] ∧ t = s) ∨
    (∃ w rest i, s.host = .present w :: rest ∧ s.wasReset = true ∧ decode w = .ok i ∧
      exec i { s with host := rest } = .next t) ∨
    ∃ e rest, s.host = e :: rest ∧ (e = .reset ∨ ∃ w, e = .abandon w) ∧
      t = resetBlock { s with host := rest } := by
  unfold takeEvent at h
  split at h
  · next hh =>
    cases h
    exact .inl ⟨hh, rfl⟩
  · next w rest hh =>
    obtain ⟨hr, i, hd, hx⟩ := acceptWord_cases h
    exact .inr (.inl ⟨w, rest, i, hh, hr, hd, hx⟩)
  · cases h
  · next w rest hh =>
    cases h
    exact .inr (.inr ⟨_, rest, hh, .inr ⟨w, rfl⟩, rfl⟩)
  · next rest hh =>
    cases h
    exact .inr (.inr ⟨_, rest, hh, .inl rfl, rfl⟩)

/-- Everything a step can do: idle, reset the block, run an operation, or go on with an ENCODE in
flight. -/
theorem step_cases {s t : State} (h : step s = .next t) :
    (s.flight = none ∧ s.host = [] ∧ t = freshStep s) ∨
    (∃ rest, t = resetBlock { freshStep s with host := rest }) ∨
    (s.flight = none ∧ s.wasReset = true ∧ ∃ w rest i, s.host = .present w :: rest ∧
      decode w = .ok i ∧ exec i { freshStep s with host := rest } = .next t) ∨
    ∃ fl, s.flight = some fl ∧ s.wasReset = true ∧ gatherPayload fl (freshStep s) = .next t := by
  cases hf : s.flight with
  | none =>
    rw [step_of_flight_none hf] at h
    obtain ⟨hh, rfl⟩ | ⟨w, rest, i, hh, hr, hd, hx⟩ | ⟨e, rest, -, -, rfl⟩ := takeEvent_cases h
    · exact .inl ⟨rfl, hh, rfl⟩
    · exact .inr (.inr (.inl ⟨rfl, hr, w, rest, i, hh, hd, hx⟩))
    · exact .inr (.inl ⟨rest, rfl⟩)
  | some fl =>
    rw [step, runStep, hf] at h
    by_cases hr : s.wasReset = true
    · obtain hg | ⟨-, -, rfl⟩ := waitFlight_cases ((if_pos hr).symm.trans h)
      · exact .inr (.inr (.inr ⟨fl, rfl, hr, hg⟩))
      · exact .inr (.inl ⟨_, rfl⟩)
    · obtain ⟨rest, -, rfl⟩ := unresetFlight_cases ((if_neg hr).symm.trans h)
      exact .inr (.inl ⟨rest, rfl⟩)

/-! ## The frame ENCODE leaves standing -/

theorem cellAt_isSome_of_holdsFrom {m : Buffer} {bs : List Byte} (h : holdsFrom m bs) {a : Nat}
    (ha : a < bs.length) : (cellAt m a).isSome := by
  rw [h a ha, List.getElem?_eq_getElem ha]
  rfl

section
variable {m : Buffer} {flag seq : Byte} {p : List Byte} (h : holdsFrom m (frameBytes flag seq p))
include h

theorem cellAt_stx_of_frame : cellAt m 0 = some Config.stx :=
  h 0 (by simp)

/-- R44: the LEN byte stands in cell 3. -/
theorem cellAt_len_of_frame : cellAt m 3 = some (BitVec.ofNat 8 p.length) :=
  h 3 (by simp)

theorem cellAt_etx_of_frame : cellAt m (p.length + 5) = some Config.etx := by
  rw [h (p.length + 5) (by simp)]
  simp [frameBytes]

/-- R75: a frame in a buffer folds to zero. -/
theorem xorFold_of_frame (b : BufName) (hp : p.length ≤ 250) : xorFold b m (p.length + 6) = .ok 0 := by
  have hlen : (frameBytes flag seq p).length ≤ Config.bufSize := by
    simp only [frameBytes_length, Config.bufSize]
    omega
  have hfold := xorFold_of_holds (b := b) hlen h
  rwa [frameBytes_length, xorBytes_frameBytes] at hfold

end

theorem holdsFrom_builtState (flag : Byte) (p rest : List Byte) (s : State) :
    holdsFrom (builtState flag p rest s).txbuf (frameBytes flag s.seqctr p) :=
  holdsFrom_builtBuffer s.txbuf flag s.seqctr p

theorem builtState_txlen_toNat {flag : Byte} {p rest : List Byte} {s : State} (hp : p.length ≤ 250) :
    (builtState flag p rest s).txlen.toNat = p.length + 6 := frameLen_toNat hp

/-- ENCODE with its payload presented (R62 to R66). -/
theorem execEncode_builds {flag : Byte} {n : Nat} {s : State} (hn : n ≤ 250)
    (hp : n ≤ s.payload.length) :
    execEncode flag n s = .next (builtState flag (s.payload.take n) (s.payload.drop n) s) := by
  rw [execEncode_gathers hn, gatherPayload_builds hp hn, offered_fresh]

/-- R44: what a LEN byte of at most 250 announces. -/
theorem lenByte_toNat {n : Nat} (hn : n ≤ 250) : (BitVec.ofNat 8 n).toNat = n := by
  rw [BitVec.toNat_ofNat]
  omega

/-- Settles O20: the frame stands in TXBUF, so its LEN byte and its fold are read off its bytes. -/
theorem standingFrameFoldsToZero : Obligations.StandingFrameFoldsToZero := by
  intro s flag n hn hp
  have hlen : (s.payload.take n).length = n := List.length_take_of_le hp
  have htx := builtState_txlen_toNat (flag := flag) (rest := s.payload.drop n) (s := s)
    (hlen.trans_le hn)
  have hframe := holdsFrom_builtState flag (s.payload.take n) (s.payload.drop n) s
  refine ⟨_, BitVec.ofNat 8 n, execEncode_builds hn hp, ?_, ?_, ?_, ?_⟩
  · rw [cellAt_len_of_frame hframe, hlen]
  · rw [htx, hlen, announcedLength, lenByte_toNat hn, Config.overhead]
  · rw [htx, hlen, bytesAfterHeader, lenByte_toNat hn]
    omega
  · rw [htx]
    exact xorFold_of_frame hframe .tx (hlen.trans_le hn)

/-! ## The overflow flag -/

/-- A push onto a full buffer has happened between `s` and `t` (R93). -/
def Overflowed (s t : State) : Prop :=
  t.rxovf = true ∧ t.rxlen.toNat = 256 ∧
    ∃ rs, t.responses = s.responses ++ rs ∧ Response.error .rxOverflow ∈ rs

/-- Pushes onto a full buffer leave it full. -/
theorem pushBytes_full {bs : List Byte} {s t : State} (h : pushBytes bs s = .next t)
    (hl : s.rxlen.toNat = 256) : t.rxlen.toNat = 256 := by
  induction bs generalizing s with
  | nil => cases h; exact hl
  | cons b bs ih =>
    rw [pushBytes, pushByte_full b hl, andThen_next] at h
    exact ih h hl

/-- A run of pushes leaves RXOVF alone or has overflowed the buffer. -/
theorem pushBytes_rxovf {bs : List Byte} {s t : State} (h : pushBytes bs s = .next t) :
    t.rxovf = s.rxovf ∨ Overflowed s t := by
  induction bs generalizing s with
  | nil => cases h; exact .inl rfl
  | cons b bs ih =>
    obtain ⟨m, hm, hk⟩ := andThen_eq_next h
    obtain ⟨rs, hrs, -⟩ := pushBytes_responses hk
    obtain ⟨hfull, rfl⟩ | ⟨-, rfl⟩ := pushByte_cases hm
    · have hovf : t.rxovf = true := (ih hk).elim id fun ho => ho.1
      have hlen : t.rxlen.toNat = 256 := pushBytes_full hk hfull
      exact .inr ⟨hovf, hlen, .error .rxOverflow :: rs, by simp [hrs], by simp⟩
    · refine (ih hk).imp_right fun ⟨hovf, hlen, rs', hrs', hmem⟩ => ⟨hovf, hlen, ?_⟩
      exact ⟨.rxpush (s.rxlen + 1) :: rs', by simp [hrs'], by simp [hmem]⟩

theorem execEncode_rxovf {flag : Byte} {n : Nat} {s t : State} (h : execEncode flag n s = .next t) :
    t.rxovf = s.rxovf := by
  obtain ⟨-, rfl⟩ | ⟨-, -, rfl⟩ | ⟨-, -, rfl⟩ := execEncode_cases h <;> rfl

/-- Settles O31, by what an operation can do: only RXCLR and pushes write the flag. -/
theorem overflowFlagWriters : Obligations.OverflowFlagWriters := by
  intro i s t h hne
  obtain ⟨-, r, rfl⟩ | ⟨flag, n, -, he⟩ | ⟨hi, rfl⟩ | ⟨bs, hi, hp⟩ := exec_cases h
  · exact absurd rfl hne
  · exact absurd (execEncode_rxovf he) hne
  · exact .inl ⟨hi, rfl⟩
  · exact .inr ⟨forms_of_pushedBytes hi, (pushBytes_rxovf hp).resolve_left hne⟩

/-! ## What each update keeps of the invariants -/

theorem blockInv_resetBlock (s : State) : BlockInv (resetBlock s) where
  seqctr_le := Nat.zero_le _
  txlen_legal := .inl rfl
  rxlen_le := Nat.zero_le _
  tx_frame := fun h0 => absurd h0 (Nat.lt_irrefl 0)
  tx_written := fun a ha => absurd ha (Nat.not_lt_zero a)
  rx_written := fun a ha => absurd ha (Nat.not_lt_zero a)
  ovf_full := fun h1 => by cases h1
  tx_wf := rfl
  rx_wf := rfl
  flight_waits := fun _ hfl => by cases hfl
  flight_reset := fun _ _ => rfl

/-- Settles O3: State.reset is a block that has just been reset. -/
theorem invariantsAtReset : Obligations.InvariantsAtReset := blockInv_resetBlock State.reset

section
variable {s t : State} (h : BlockInv s)
include h

theorem blockInv_freshStep : BlockInv (freshStep s) := { h with }

theorem blockInv_answer (r : Response) : BlockInv (answer r s) := { h with }

/-- A failed ENCODE leaves no frame standing (R61). -/
theorem blockInv_noFrame : BlockInv { s with txlen := 0 } :=
  { h with
    txlen_legal := .inl rfl
    tx_frame := fun h0 => absurd h0 (Nat.lt_irrefl 0)
    tx_written := fun a ha => absurd ha (Nat.not_lt_zero a) }

theorem blockInv_rxclr : BlockInv { s with rxlen := 0, rxovf := false } :=
  { h with
    rxlen_le := Nat.zero_le _
    rx_written := fun a ha => absurd ha (Nat.not_lt_zero a)
    ovf_full := fun h1 => by cases h1 }

/-- RXOVF may be set once the buffer is full (R93). -/
theorem blockInv_overflow (hl : s.rxlen.toNat = 256) : BlockInv { s with rxovf := true } :=
  { h with ovf_full := fun _ => hl }

/-- A byte appended below the end of the buffer (R92). -/
theorem blockInv_append (b : Byte) (hl : s.rxlen.toNat < 256) :
    BlockInv { s with rxbuf := setCell s.rxbuf s.rxlen.toNat b, rxlen := s.rxlen + 1 } := by
  have hlen := len_add_one_toNat hl
  exact
    { h with
      rxlen_le := hlen.trans_le hl
      rx_written := fun a ha => by
        change (cellAt (setCell s.rxbuf s.rxlen.toNat b) a).isSome
        rw [cellAt_setCell]
        split
        · rfl
        · next hne =>
          have ha' : a < s.rxlen.toNat + 1 := ha.trans_eq hlen
          exact h.rx_written a (by omega)
      ovf_full := fun h1 => absurd (h.ovf_full h1) hl.ne
      rx_wf := bufferWf_setCell b h.rx_wf hl }

theorem blockInv_pushByte {b : Byte} (hp : pushByte b s = .next t) : BlockInv t := by
  obtain ⟨hl, rfl⟩ | ⟨hl, rfl⟩ := pushByte_cases hp
  · exact blockInv_answer (blockInv_overflow h hl) _
  · exact blockInv_answer (blockInv_append h b hl) _

omit h in
theorem blockInv_pushBytes {bs : List Byte} {s : State} (h : BlockInv s)
    (hp : pushBytes bs s = .next t) : BlockInv t := by
  induction bs generalizing s with
  | nil => cases hp; exact h
  | cons b bs ih =>
    obtain ⟨m, hm, hk⟩ := andThen_eq_next hp
    exact ih (blockInv_pushByte h hm) hk

/-- A whole frame stands in TXBUF (R62 to R66). -/
theorem blockInv_builtState (flag : Byte) {p : List Byte} (rest : List Byte) (hp : p.length ≤ 250) :
    BlockInv (builtState flag p rest s) := by
  have htx := builtState_txlen_toNat (flag := flag) (rest := rest) (s := s) hp
  have hframe := holdsFrom_builtState flag p rest s
  exact
    { h with
      seqctr_le := by
        change (seqNext s.seqctr).toNat ≤ 254
        rw [seqNext_toNat]
        omega
      txlen_legal := .inr (by omega)
      tx_frame := fun _ => by
        rw [htx]
        exact ⟨cellAt_stx_of_frame hframe, cellAt_len_of_frame hframe, cellAt_etx_of_frame hframe,
          xorFold_of_frame hframe .tx hp⟩
      tx_written := fun a ha =>
        cellAt_isSome_of_holdsFrom hframe (by rw [frameBytes_length]; omega)
      tx_wf := bufferWf_builtBuffer h.tx_wf hp
      flight_waits := fun _ hfl => by cases hfl
      flight_reset := fun _ hfl => by cases hfl }

/-- An ENCODE that has passed its length check takes payload bytes, and waits or answers (R104). -/
theorem blockInv_gatherPayload {fl : Flight} (hr : s.wasReset = true) (hn : fl.n ≤ 250)
    (hg : gatherPayload fl s = .next t) : BlockInv t := by
  rcases Nat.lt_or_ge (offered fl s).length fl.n with hw | hw
  · rw [gatherPayload_waits hw] at hg
    cases hg
    exact
      { h with
        flight_waits := fun _ hfl => Option.some.inj hfl ▸ ⟨hn, hw⟩
        flight_reset := fun _ _ => hr }
  · rw [gatherPayload_builds hw hn] at hg
    cases hg
    exact blockInv_builtState h _ _ ((List.length_take_le _ _).trans hn)

theorem blockInv_execEncode {flag : Byte} {n : Nat} (hr : s.wasReset = true)
    (he : execEncode flag n s = .next t) : BlockInv t := by
  rcases Nat.lt_or_ge 250 n with hn | hn
  · rw [execEncode_tooLong hn] at he
    cases he
    exact blockInv_answer (blockInv_noFrame h) _
  · exact blockInv_gatherPayload h hr hn (execEncode_gathers hn ▸ he)

/-- Every operation after the first reset keeps the invariants. -/
theorem blockInv_exec {i : Instr} (hr : s.wasReset = true) (hx : exec i s = .next t) : BlockInv t := by
  obtain ⟨-, r, rfl⟩ | ⟨flag, n, -, he⟩ | ⟨-, rfl⟩ | ⟨bs, -, hp⟩ := exec_cases hx
  · exact blockInv_answer h r
  · exact blockInv_execEncode h hr he
  · exact blockInv_answer (blockInv_rxclr h) _
  · exact blockInv_pushBytes h hp

end

/-- Settles O4, by what a step can do: it idles, resets, runs an operation or goes on with the ENCODE in
flight, and each keeps the invariants. -/
theorem stepKeepsInvariants : Obligations.StepKeepsInvariants := by
  intro s t h hs
  have hfresh := blockInv_freshStep h
  obtain ⟨-, -, rfl⟩ | ⟨rest, rfl⟩ | ⟨-, hr, w, rest, i, -, -, hx⟩ | ⟨fl, hfl, hr, hg⟩ :=
    step_cases hs
  · exact hfresh
  · exact blockInv_resetBlock _
  · exact blockInv_exec (blockInv_host hfresh rest) hr hx
  · exact blockInv_gatherPayload hfresh hr (h.flight_waits fl hfl).1 hg

end Sys2Proof.Machine
end

section
/-! PROOFS. The readers, which neither change the state nor depend on the responses already given; the
statement of spec/20_memory.md. -/

namespace Sys2Proof.Machine

/-- VERIFY on fewer than two bytes (R73). -/
theorem execVerify_runt {s : State} (h : s.rxlen.toNat < 2) :
    execVerify s = .next (answer (.error .runt) s) := if_pos h

/-- DECODE on fewer than six bytes (R81). -/
theorem execDecode_runt {s : State} (h : s.rxlen.toNat < 6) :
    execDecode s = .next (answer (.error .runt) s) := if_pos h

/-- What a reader answers depends only on the length registers, RXOVF and the buffers, all of which a
response leaves as they are: after any response `q` it gives the response it gives now (R32). -/
theorem exec_reader_answers {i : Instr} {s t : State} (hi : isReader i = true)
    (h : exec i s = .next t) :
    ∃ r, t = answer r s ∧ ∀ q, exec i (answer q s) = .next (answer r (answer q s)) := by
  cases i with
  | txrd i =>
    obtain ⟨hr, rfl⟩ | ⟨hr, v, hv, rfl⟩ := execTxrd_cases h
    · exact ⟨_, rfl, fun q => execTxrd_range (s := answer q s) hr⟩
    · exact ⟨_, rfl, fun q => execTxrd_of (s := answer q s) hr hv⟩
  | rxrd i =>
    obtain ⟨hr, rfl⟩ | ⟨hr, v, hv, rfl⟩ := execRxrd_cases h
    · exact ⟨_, rfl, fun q => execRxrd_range (s := answer q s) hr⟩
    · exact ⟨_, rfl, fun q => execRxrd_of (s := answer q s) hr hv⟩
  | verify =>
    obtain ⟨hr, rfl⟩ | ⟨hr, stored, c, hs, hc, rfl⟩ := execVerify_cases h
    · exact ⟨_, rfl, fun q => execVerify_runt (s := answer q s) hr⟩
    · exact ⟨_, rfl, fun q => execVerify_of (s := answer q s) hr hs hc⟩
  | decode =>
    obtain ⟨hr, rfl⟩ | ⟨hr, first, flag, seq, flen, cs, last, fold, h0, h1, h2, h3, h4, h5, h6, rfl⟩ :=
      execDecode_cases h
    · exact ⟨_, rfl, fun q => execDecode_runt (s := answer q s) hr⟩
    · exact ⟨_, rfl, fun q => execDecode_of (s := answer q s) hr h0 h1 h2 h3 h4 h5 h6⟩
  | _ => simp [isReader] at hi

/-- Settles O51: the state after a read is the state before it with one response more, and the second
read answers as the first. -/
theorem readsHaveNoSideEffects : Obligations.ReadsHaveNoSideEffects := by
  intro i s t hi h
  obtain ⟨r, rfl, hagain⟩ := exec_reader_answers hi h
  exact ⟨r, rfl, hagain r⟩

end Sys2Proof.Machine
end

section
/-! PROOFS. What the decoder reads from the words of each format, the rows those words are in, and what
the encoder writes back; the statements of spec/30_encoding.md about words. -/

namespace Sys2Proof

/-! ## The op code of an operation -/

/-- The op code of an operation of the port (R47, R52); a wire row has none. -/
def operationCode : Instr → Option (BitVec 3)
  | .illegal => some 0
  | .encode _ _ => some 1
  | .txrd _ => some 2
  | .rxclr => some 3
  | .rxpush _ => some 4
  | .rxrd _ => some 5
  | .verify => some 6
  | .decode => some 7
  | .frameEnq _ _ | .frameAck _ _ | .frameNak _ _ | .frameAny _ _ _ | .frameTrailer _ => none

section
variable (c : BitVec 3) (a : Byte) (n : Nat)

theorem operationCode_instrOfFields : operationCode (instrOfFields c.toNat a n) = some c := by
  obtain rfl | rfl | rfl | rfl | rfl | rfl | rfl | rfl := opCode_cases c <;> rfl

/-- The op code is all a row of an operation fixes (R46). -/
theorem row_instrOfFields :
    (instrOfFields c.toNat a n).row.format = .opword27 ∧
      (instrOfFields c.toNat a n).row.mask = 0x7000000 ∧
      (instrOfFields c.toNat a n).row.value = 2 ^ 24 * c.toNat := by
  obtain rfl | rfl | rfl | rfl | rfl | rfl | rfl | rfl := opCode_cases c <;> exact ⟨rfl, rfl, rfl⟩

theorem wfAt_instrOfFields {lenw : Nat} (hn : n < 2 ^ lenw) :
    (instrOfFields c.toNat a n).wfAt lenw = true := by
  have hfits : fitsLenw lenw n = true := fitsLenw_iff.mpr hn
  obtain rfl | rfl | rfl | rfl | rfl | rfl | rfl | rfl := opCode_cases c <;>
    simp [instrOfFields, Instr.wfAt, hfits]

end

theorem operationCode_decodeOp {lenw : Nat} (w : OpWord lenw) :
    operationCode (decodeOp w) = some (opCode w) :=
  operationCode_instrOfFields (opCode w) (opArg8 w) (opArg16 w).toNat

/-! ## The used fields -/

open Machine (usesArg8 usesArg16)

/-- With the op code fixed, the operation is a function of the fields it uses and of no other, and it
determines them (R47, R53). -/
theorem instrOfFields_eq_iff {c : BitVec 3} {a a' : Byte} {n n' : Nat} :
    instrOfFields c.toNat a n = instrOfFields c.toNat a' n' ↔
      (usesArg8 c → a = a') ∧ (usesArg16 c → n = n') := by
  obtain rfl | rfl | rfl | rfl | rfl | rfl | rfl | rfl := opCode_cases c <;>
    simp [instrOfFields, usesArg8, usesArg16]

theorem decodeOp_eq_iff {lenw : Nat} {w w' : OpWord lenw} :
    decodeOp w = decodeOp w' ↔
      opCode w = opCode w' ∧ (usesArg8 (opCode w) → opArg8 w = opArg8 w') ∧
        (usesArg16 (opCode w) → opArg16 w = opArg16 w') := by
  have hfields (hc : opCode w = opCode w') : decodeOp w = decodeOp w' ↔
      (usesArg8 (opCode w) → opArg8 w = opArg8 w') ∧
        (usesArg16 (opCode w) → opArg16 w = opArg16 w') := by
    rw [decodeOp_eq_instrOfFields, decodeOp_eq_instrOfFields, ← hc, instrOfFields_eq_iff,
      BitVec.toNat_inj]
  constructor
  · intro h
    have hc : opCode w = opCode w' := by
      simpa only [operationCode_decodeOp, Option.some.injEq] using congrArg operationCode h
    exact ⟨hc, (hfields hc).mp h⟩
  · rintro ⟨hc, hused⟩
    exact (hfields hc).mpr hused

/-- `arg8` as the encoder writes it: 0 where the op code ignores it (log 22). -/
def writtenArg8 (c : BitVec 3) (a : Byte) : Byte := if c = 1 ∨ c = 4 then a else 0

/-- `arg16` as the encoder writes it: 0 where the op code ignores it (log 22). -/
def writtenArg16 (c : BitVec 3) (n : Nat) : Nat := if c = 1 ∨ c = 2 ∨ c = 5 then n else 0

theorem writtenArg8_of_used {c : BitVec 3} (a : Byte) (h : usesArg8 c) : writtenArg8 c a = a := if_pos h
theorem writtenArg8_of_ignored {c : BitVec 3} (a : Byte) (h : ¬ usesArg8 c) : writtenArg8 c a = 0 :=
  if_neg h
theorem writtenArg16_of_used {c : BitVec 3} (n : Nat) (h : usesArg16 c) : writtenArg16 c n = n := if_pos h
theorem writtenArg16_of_ignored {c : BitVec 3} (n : Nat) (h : ¬ usesArg16 c) : writtenArg16 c n = 0 :=
  if_neg h

theorem encodeAt_instrOfFields (lenw : Nat) (c : BitVec 3) (a : Byte) (n : Nat) :
    encodeAt lenw (instrOfFields c.toNat a n) =
      opwordOf lenw c (writtenArg8 c a) (writtenArg16 c n) := by
  obtain rfl | rfl | rfl | rfl | rfl | rfl | rfl | rfl := opCode_cases c <;> rfl

/-- The word the encoder gives the operation of `w`. -/
def rewritten {lenw : Nat} (w : OpWord lenw) : OpWord lenw :=
  packOp (opCode w) (writtenArg8 (opCode w) (opArg8 w))
    (BitVec.ofNat lenw (writtenArg16 (opCode w) (opArg16 w).toNat))

theorem encodeAt_decodeOp {lenw : Nat} (w : OpWord lenw) :
    encodeAt lenw (decodeOp w) = .opword lenw (rewritten w) :=
  encodeAt_instrOfFields lenw (opCode w) (opArg8 w) (opArg16 w).toNat

theorem decodeOp_rewritten {lenw : Nat} (w : OpWord lenw) : decodeOp (rewritten w) = decodeOp w := by
  rw [decodeOp_eq_iff, rewritten, opCode_packOp, opArg8_packOp, opArg16_packOp]
  refine ⟨rfl, writtenArg8_of_used _, fun h => ?_⟩
  rw [writtenArg16_of_used _ h, BitVec.ofNat_toNat, BitVec.setWidth_eq]

/-- Settles O11: a word's operation is a function of its op code and used fields that loses neither. -/
theorem ignoredFieldsChangeNothing : Obligations.IgnoredFieldsChangeNothing := by
  refine ⟨fun _ _ _ => decodeOp_eq_iff,
    fun lenw w => ⟨rewritten w, encodeAt_decodeOp w, decodeOp_rewritten w, fun h => ?_, fun h => ?_⟩⟩
  · rw [rewritten, opArg8_packOp, writtenArg8_of_ignored _ h]
  · rw [rewritten, opArg16_packOp, writtenArg16_of_ignored _ h]
    rfl

/-! ## The row of a decoded word -/

/-- The encoder's word is in its instruction's row (spec/opcode_table.json). -/
theorem encode_inRow (i : Instr) : (encode i).inRow i.row = true := by
  cases i with
  | illegal => exact Laws.TableRow.illegal
  | encode flag n => exact Laws.TableRow.encode flag n
  | txrd i => exact Laws.TableRow.txrd i
  | rxclr => exact Laws.TableRow.rxclr
  | rxpush b => exact Laws.TableRow.rxpush b
  | rxrd i => exact Laws.TableRow.rxrd i
  | verify => exact Laws.TableRow.verify
  | decode => exact Laws.TableRow.decode
  | frameEnq seq len => exact Laws.TableRow.frameEnq seq len
  | frameAck seq len => exact Laws.TableRow.frameAck seq len
  | frameNak seq len => exact Laws.TableRow.frameNak seq len
  | frameAny flag seq len => exact Laws.TableRow.frameAny flag seq len
  | frameTrailer cs => exact Laws.TableRow.frameTrailer cs

theorem opword_inRow_decodeOp {lenw : Nat} (w : OpWord lenw) :
    (RawWord.opword lenw w).inRow (decodeOp w).row = true := by
  have hword : RawWord.opword lenw w =
      opwordOf lenw (opCode w) (opArg8 w) (opArg16 w).toNat := by
    rw [opwordOf, BitVec.ofNat_toNat, BitVec.setWidth_eq, packOp_fields]
  obtain ⟨hformat, hmask, hvalue⟩ := row_instrOfFields (opCode w) (opArg8 w) (opArg16 w).toNat
  rw [hword]
  exact Laws.TableRow.inRow_op hformat hmask hvalue

theorem eq_decodeOp_of_decode {lenw : Nat} {w : OpWord lenw} {i : Instr}
    (h : decode (.opword lenw w) = .ok i) : i = decodeOp w := by
  rcases Nat.lt_or_ge lenw 9 with hlt | hge
  · have hnarrow : decode (.opword lenw w) = .error .narrowLenw := if_pos hlt
    rw [hnarrow] at h
    cases h
  · rw [decode_opword w hge] at h
    cases h
    rfl

/-- A wire word has no ignored bit: it is the encoder's word of what it decodes to, and a flag that a
row names is not read as FRAME.ANY (log 19). -/
theorem encode_of_decodeHeader {w : BitVec 32} {i : Instr} (h : decodeHeader w = .ok i) :
    encode i = .header w ∧ i.wf = true := by
  rw [← packHeader_bytes w] at h ⊢
  generalize headerByte w 0 = b0, headerByte w 1 = b1, headerByte w 2 = b2, headerByte w 3 = b3 at h ⊢
  rw [decodeHeader_packHeader] at h
  split_ifs at h with hstx henq hack hnak <;> cases h
  · rw [not_not.mp hstx, henq]
    exact ⟨rfl, rfl⟩
  · rw [not_not.mp hstx, hack]
    exact ⟨rfl, rfl⟩
  · rw [not_not.mp hstx, hnak]
    exact ⟨rfl, rfl⟩
  · rw [not_not.mp hstx]
    exact ⟨rfl, not_namedFlag_iff.mpr ⟨henq, hack, hnak⟩⟩

theorem encode_of_decodeTrailer {w : BitVec 16} {i : Instr} (h : decodeTrailer w = .ok i) :
    encode i = .trailer w ∧ i.wf = true := by
  rw [← packTrailer_bytes w] at h ⊢
  rw [decodeTrailer_packTrailer] at h
  split_ifs at h with hetx
  cases h
  rw [not_not.mp hetx]
  exact ⟨rfl, rfl⟩

/-- Settles O12: an operation word has the row of its op code, and a wire word is the encoder's. -/
theorem decodedWordIsInItsRow : Obligations.DecodedWordIsInItsRow := by
  intro w i h
  cases w with
  | opword lenw w =>
    obtain rfl := eq_decodeOp_of_decode h
    exact ⟨opword_inRow_decodeOp w, wfAt_instrOfFields _ _ _ (opArg16 w).isLt⟩
  | header w =>
    obtain ⟨hword, hwf⟩ := encode_of_decodeHeader h
    exact ⟨hword ▸ encode_inRow i, hwf⟩
  | trailer w =>
    obtain ⟨hword, hwf⟩ := encode_of_decodeTrailer h
    exact ⟨hword ▸ encode_inRow i, hwf⟩

/-! ## Words written out -/

/-- Settles O14: the bytes of a packed wire word are taken out again. -/
theorem wireWordFields : Obligations.WireWordFields :=
  ⟨decodeHeader_packHeader, decodeTrailer_packTrailer⟩

/-- Settles O15, by running the decoder on each word. -/
theorem listedWordsDecode : Obligations.ListedWordsDecode := by
  unfold Obligations.ListedWordsDecode
  decide

/-- Settles O16: the operation keeps its op code, and 0 uses no field. -/
theorem illegalOpChangesNothing : Obligations.IllegalOpChangesNothing := by
  refine ⟨fun lenw w => ⟨fun h => ?_, fun h => ?_⟩, fun _ => rfl⟩
  · have hcode : some (opCode w) = some 0 := by rw [← operationCode_decodeOp w, h]; rfl
    exact Option.some.inj hcode
  · rw [decodeOp_eq_instrOfFields, h]
    rfl

end Sys2Proof
end

section
/-! PROOFS. Runs of pushes, with room for all their bytes and in any state, and runs of TXRDs; the
statements of spec/30_encoding.md about the wire rows and the pseudo-operations, and about the pins. -/

namespace Sys2Proof.Machine

/-! ## Runs of operations -/

theorem runOps_append (xs ys : List Instr) (s : State) :
    runOps (xs ++ ys) s = andThen (runOps xs s) (runOps ys) := by
  induction xs generalizing s with
  | nil => rfl
  | cons i xs ih =>
    rw [List.cons_append, runOps, runOps]
    cases exec i s with
    | next t => exact ih t
    | fault f => rfl
    | refused e => rfl

theorem runOps_rxpush (bs : List Byte) : runOps (bs.map .rxpush) = pushBytes bs := by
  induction bs with
  | nil => rfl
  | cons b bs ih =>
    funext s
    rw [List.map_cons, runOps, ih]
    rfl

/-- Settles O47: a wire row is a run of pushes, and so are the RXPUSHes of its bytes. -/
theorem wireRowsArePushes : Obligations.WireRowsArePushes := by
  intro s flag seq len cs
  have hpush (bs : List Byte) : pushBytes bs s = runOps (bs.map .rxpush) s := by rw [runOps_rxpush]
  exact ⟨hpush (headerBytes Config.enq seq len), hpush (headerBytes Config.ack seq len),
    hpush (headerBytes Config.nak seq len), hpush (headerBytes flag seq len),
    hpush (trailerBytes cs)⟩

/-! ## Pushes with room -/

/-- The response of the push at place `j` of a run with room carries the RXLEN after it (R92). -/
theorem pushResponses_eq_map (bs : List Byte) (l : Len) :
    pushResponses bs l =
      (List.range bs.length).map fun j => .rxpush (l + BitVec.ofNat 9 (j + 1)) := by
  induction bs generalizing l with
  | nil => rfl
  | cons b bs ih =>
    have hstep (j : Nat) : l + 1 + BitVec.ofNat 9 (j + 1) = l + BitVec.ofNat 9 (j + 1 + 1) := by
      rw [BitVec.add_assoc, BitVec.add_comm 1, BitVec.ofNat_add (j + 1) 1]
      rfl
    rw [pushResponses, ih, List.length_cons, List.range_succ_eq_map, List.map_cons, List.map_map]
    simp only [hstep, Function.comp_def, Nat.succ_eq_add_one]
    rfl

/-- The state after pushes of `bs` with room for all of them. -/
def pushedState (bs : List Byte) (s : State) : State :=
  { s with
    rxbuf := fillCells s.rxbuf s.rxlen.toNat bs
    rxlen := s.rxlen + BitVec.ofNat 9 bs.length
    responses := s.responses ++
      (List.range bs.length).map fun j => .rxpush (s.rxlen + BitVec.ofNat 9 (j + 1)) }

section
variable {bs : List Byte} {s : State}

theorem pushBytes_eq_pushedState (h : s.rxlen.toNat + bs.length ≤ 256) :
    pushBytes bs s = .next (pushedState bs s) := by
  rw [pushBytes_room h, pushResponses_eq_map, pushedState]

theorem exec_eq_pushedState {i : Instr} (hi : pushedBytes i = some bs)
    (h : s.rxlen.toNat + bs.length ≤ 256) : exec i s = .next (pushedState bs s) :=
  (exec_of_pushedBytes s hi).trans (pushBytes_eq_pushedState h)

theorem cellAt_pushedState_inside {j : Nat} (h : j < bs.length) :
    cellAt (pushedState bs s).rxbuf (s.rxlen.toNat + j) = bs[j]? :=
  cellAt_fillCells_inside bs h

theorem cellAt_pushedState_outside {a : Nat}
    (h : a < s.rxlen.toNat ∨ s.rxlen.toNat + bs.length ≤ a) :
    cellAt (pushedState bs s).rxbuf a = cellAt s.rxbuf a :=
  h.elim (cellAt_fillCells_below bs) (cellAt_fillCells_above bs)

/-- Pushes into an empty buffer leave exactly their bytes in it. -/
theorem rxHolds_pushedState (h0 : s.rxlen = 0) (h : bs.length ≤ 256) :
    rxHolds (pushedState bs s) bs := by
  have hzero : s.rxlen.toNat = 0 := by rw [h0]; rfl
  refine ⟨?_, h, fun j hj => ?_⟩
  · exact ((pushed_length_toNat (by omega)).trans (by omega)).symm
  · simpa only [hzero, Nat.zero_add] using cellAt_pushedState_inside (s := s) hj

end

/-- Settles O48: each of the four rows pushes its four header bytes, for which there is room. -/
theorem headerRowsComplete : Obligations.HeaderRowsComplete := by
  intro s i flag seq len hroom hi
  have hbytes : pushedBytes i = some (headerBytes flag seq len) := by
    obtain ⟨rfl, rfl⟩ | ⟨rfl, rfl⟩ | ⟨rfl, rfl⟩ | rfl := hi <;> rfl
  have hcell {j : Nat} (hj : j < 4) :=
    cellAt_pushedState_inside (bs := headerBytes flag seq len) (s := s) hj
  exact ⟨_, exec_eq_pushedState hbytes hroom, rfl, hcell (j := 0) (by decide),
    hcell (j := 1) (by decide), hcell (j := 2) (by decide), hcell (j := 3) (by decide),
    fun _ => cellAt_pushedState_outside (bs := headerBytes flag seq len)⟩

/-- Settles O49: the row pushes its two trailer bytes, for which there is room. -/
theorem trailerRowCompletes : Obligations.TrailerRowCompletes := by
  intro s cs hroom
  have hcell {j : Nat} (hj : j < 2) :=
    cellAt_pushedState_inside (bs := trailerBytes cs) (s := s) hj
  exact ⟨_, exec_eq_pushedState rfl hroom, rfl, hcell (j := 0) (by decide),
    hcell (j := 1) (by decide), fun _ => cellAt_pushedState_outside (bs := trailerBytes cs)⟩

/-- The state after RXCLR (R91). -/
def clearedState (s : State) : State := answer (.rxclr 0) { s with rxlen := 0, rxovf := false }

theorem exec_rxclr (s : State) : exec .rxclr s = .next (clearedState s) := rfl

/-- RXLOAD: after the RXCLR there is room for the bytes, from cell 0 up (R56). -/
theorem runOps_rxloadOps {bs : List Byte} (s : State) (h : bs.length ≤ 256) :
    runOps (rxloadOps bs) s = .next (pushedState bs (clearedState s)) := by
  have hroom : (clearedState s).rxlen.toNat + bs.length ≤ 256 := by simpa [clearedState] using h
  rw [rxloadOps, runOps, exec_rxclr, andThen_next, runOps_rxpush, pushBytes_eq_pushedState hroom]

/-- Settles O33: the bytes are pushed into a buffer that RXCLR has emptied. -/
theorem rxloadHoldsBytes : Obligations.RxloadHoldsBytes := by
  intro s bs h
  refine ⟨_, runOps_rxloadOps s h, rxHolds_pushedState rfl h, rfl, ⟨rfl, rfl, rfl, rfl, rfl⟩, ?_⟩
  simp [pushedState, clearedState]

/-! ## DRAIN -/

/-- TXRDs of the first cells of a TXBUF that holds known bytes (R90). -/
theorem runOps_drainOps {bs : List Byte} {a : State} (hb : bs.length ≤ Config.bufSize)
    (hlen : a.txlen.toNat = bs.length) (h : holdsFrom a.txbuf bs) {k : Nat} (hk : k ≤ bs.length) :
    runOps (drainOps k) a =
      .next { a with responses := a.responses ++ (bs.take k).map .txrd } := by
  induction k with
  | zero => simp [drainOps, runOps]
  | succ k ih =>
    have hops : drainOps (k + 1) = drainOps k ++ [.txrd k] := by simp [drainOps, List.range_succ]
    have hread : readCell .tx a.txbuf k = .ok bs[k] := readCell_of_holds hb h hk
    have hlast (rs : List Response) : exec (.txrd k) { a with responses := rs } =
        .next { a with responses := rs ++ [.txrd bs[k]] } :=
      execTxrd_of (s := { a with responses := rs }) (hlen ▸ hk) hread
    rw [hops, runOps_append, ih (by omega), andThen_next, runOps, hlast, andThen_next, runOps,
      ← List.take_append_getElem hk, List.map_append, List.append_assoc]
    rfl

/-- ENCODE with a payload HOST presents with it (R60, R104). -/
theorem encodeWith_builds {flag : Byte} {p : List Byte} {s : State} (hp : p.length ≤ 250) :
    encodeWith flag p s =
      .next (builtState flag p s.payload { s with payload := p ++ s.payload }) := by
  have hmax : p.length ≤ Config.maxPayload := hp
  rw [encodeWith, if_pos hmax, exec, execEncode_builds hp (by simp)]
  simp

/-- Settles O27: the ENCODE leaves the frame's bytes in TXBUF, and DRAIN reads all of them. -/
theorem drainGivesFrameInOrder : Obligations.DrainGivesFrameInOrder := by
  intro s flag p hp
  have hdrain := runOps_drainOps (k := p.length + 6)
    (by simp only [frameBytes_length, Config.bufSize]; omega)
    ((builtState_txlen_toNat hp).trans (frameBytes_length flag s.seqctr p).symm)
    (holdsFrom_builtState flag p s.payload { s with payload := p ++ s.payload })
    (frameBytes_length flag s.seqctr p).ge
  refine ⟨_, _, encodeWith_builds hp, hdrain, ?_⟩
  rw [List.take_of_length_le (frameBytes_length flag s.seqctr p).le]

/-! ## The response pins -/

@[simp] theorem pinsOf_rspValid (k j : Nat) (r : Response) : (pinsOf k j r).rspValid = true := by
  cases r <;> rfl

@[simp] theorem pinsOf_rspStatus (k j : Nat) (r : Response) :
    (pinsOf k j r).rspStatus = statusCode r := by
  cases r <;> rfl

/-- Settles O57, by the shape of the response: each listed pin is set last, over the free value. -/
theorem pinsCarryListedFields : Obligations.PinsCarryListedFields := by
  refine ⟨fun s h => ⟨quietPins s.draws 0, by rw [pinCycles, h], rfl⟩, fun s r h => ?_⟩
  refine ⟨pinsOf s.draws 0 r, by rw [pinCycles, h]; rfl, pinsOf_rspValid .., pinsOf_rspStatus ..,
    ?_, ?_, ?_, ?_, ?_, ?_, ?_, ?_, ?_⟩
  · rintro len (rfl | rfl | rfl) <;> exact ⟨rfl, rfl⟩
  · rintro data (rfl | rfl) <;> exact ⟨rfl, rfl⟩
  · rintro ok rfl
    exact ⟨rfl, rfl⟩
  · rintro len flag seq flen cs bits rfl
    exact ⟨rfl, rfl, rfl, rfl, rfl, rfl, rfl⟩
  all_goals
    rintro rfl
    rfl

end Sys2Proof.Machine
end

section
/-! PROOFS. ENCODE: the failure above 250 bytes, the frame it builds and its checksum, who steps SEQCTR, and
the SEQ bytes of ENCODEs in a row; the statements of spec/40_encode.md. -/

namespace Sys2Proof.Machine

/-! ## The length check -/

/-- Settles O17: ENCODE stops at its length check, and with TXLEN at 0 every index is out of range. -/
theorem encodeTooLargeFails : Obligations.EncodeTooLargeFails := by
  intro s flag n hn
  exact ⟨_, execEncode_tooLong hn, rfl, fun i => execTxrd_range (Nat.zero_le i)⟩

/-! ## The built frame -/

/-- R63: building a frame steps SEQCTR modulo 255. -/
theorem builtState_seqctr_toNat (flag : Byte) (p rest : List Byte) (s : State) :
    (builtState flag p rest s).seqctr.toNat = (s.seqctr.toNat + 1) % 255 := seqNext_toNat s.seqctr

/-- Settles O18: each clause is read off the state in which the frame has been built. -/
theorem encodeBuildsFrame : Obligations.EncodeBuildsFrame := by
  intro s flag n hn hp
  have hlen : (s.payload.take n).length = n := List.length_take_of_le hp
  have htx := builtState_txlen_toNat (flag := flag) (rest := s.payload.drop n) (s := s)
    (hlen.trans_le hn)
  refine ⟨_, execEncode_builds hn hp, rfl, holdsFrom_builtState flag _ _ s, fun a ha => ?_,
    builtState_seqctr_toNat .., by rw [htx, hlen]⟩
  exact cellAt_builtBuffer_above (by rwa [hlen])

section
variable {m : Buffer} {flag seq : Byte} {p : List Byte} (h : holdsFrom m (frameBytes flag seq p))
include h

/-- R63: the SEQ byte stands in cell 2. -/
theorem cellAt_seq_of_frame : cellAt m 2 = some seq :=
  h 2 (by simp)

/-- R66: the checksum stands in the cell before ETX. -/
theorem cellAt_checksum_of_frame : cellAt m (p.length + 4) = some (closedChecksum flag seq p) := by
  rw [h (p.length + 4) (by simp)]
  simp [frameBytes]

end

/-- R68: STX and ETX together contribute `0x02 ^ 0x03 = 0x01`. -/
theorem closedChecksum_eq_markers_folded (flag seq : Byte) (p : List Byte) :
    closedChecksum flag seq p =
      0x01 ^^^ flag ^^^ seq ^^^ BitVec.ofNat 8 p.length ^^^ xorBytes p := by
  have hmarkers : (0x01 : Byte) = Config.stx ^^^ Config.etx := by decide
  rw [closedChecksum, hmarkers]
  ac_rfl

/-- Settles O19: cell `n + 4` of the built frame holds the closed form, and its two markers fold. -/
theorem encodeChecksumClosedForm : Obligations.EncodeChecksumClosedForm := by
  intro s flag n hn hp
  have hlen : (s.payload.take n).length = n := List.length_take_of_le hp
  have hcell := cellAt_checksum_of_frame
    (holdsFrom_builtState flag (s.payload.take n) (s.payload.drop n) s)
  have hfolded := closedChecksum_eq_markers_folded flag s.seqctr (s.payload.take n)
  rw [hlen] at hcell hfolded
  refine ⟨_, execEncode_builds hn hp, ?_, hcell.trans (congrArg some hfolded)⟩
  rw [hcell, closedChecksum, hlen]
  rfl

/-! ## The sequence counter -/

/-- The receive side does not touch SEQCTR. -/
theorem pushBytes_seqctr {bs : List Byte} {s t : State} (h : pushBytes bs s = .next t) :
    t.seqctr = s.seqctr := by
  rw [pushBytes_frame h]

/-- Settles O25, by what an operation can do: of all of them only the ENCODE that builds a frame writes
SEQCTR; one that fails or waits does not. -/
theorem onlyBuiltFramesStepCounter : Obligations.OnlyBuiltFramesStepCounter := by
  intro i s t h
  obtain ⟨-, r, rfl⟩ | ⟨flag, n, hi, he⟩ | ⟨-, rfl⟩ | ⟨bs, -, hp⟩ := exec_cases h
  · exact .inl rfl
  · obtain ⟨-, rfl⟩ | ⟨-, -, rfl⟩ | ⟨hn, -, rfl⟩ := execEncode_cases he
    · exact .inl rfl
    · exact .inl rfl
    · exact .inr ⟨flag, n, hi, hn, rfl, rfl, builtState_seqctr_toNat ..⟩
  · exact .inl rfl
  · exact .inl (pushBytes_seqctr hp)

/-- An ENCODE at the head of a run builds its frame, and the rest runs on. -/
theorem encodeAll_cons_builds {flag : Byte} {p : List Byte} (rest : List (Byte × List Byte)) (s : State)
    (hp : p.length ≤ 250) :
    encodeAll ((flag, p) :: rest) s =
      encodeAll rest (builtState flag p s.payload { s with payload := p ++ s.payload }) := by
  rw [encodeAll, encodeWith_builds hp, andThen_next]

/-- Settles O26, by induction on the ENCODEs before the last: each steps SEQCTR once, and the last writes
it into cell 2 and steps it. -/
theorem successiveFramesCountModulo255 : Obligations.SuccessiveFramesCountModulo255 := by
  intro s fs flag p hs hfs hp
  induction fs generalizing s with
  | nil =>
    have hframe := holdsFrom_builtState flag p s.payload { s with payload := p ++ s.payload }
    refine ⟨_, encodeAll_cons_builds [] s hp, ?_, builtState_seqctr_toNat ..⟩
    rw [cellAt_seq_of_frame hframe, List.length_nil, Nat.add_zero,
      Nat.mod_eq_of_lt (Nat.lt_succ_of_le hs), BitVec.ofNat_toNat, BitVec.setWidth_eq]
  | cons f fs ih =>
    obtain ⟨g, q⟩ := f
    obtain ⟨hq, hrest⟩ := List.forall_mem_cons.mp hfs
    have hstep : (builtState g q s.payload { s with payload := q ++ s.payload }).seqctr.toNat =
        (s.seqctr.toNat + 1) % 255 := builtState_seqctr_toNat ..
    obtain ⟨t, ht, hcell, hctr⟩ := ih _ (hstep.trans_le (by omega)) hrest
    refine ⟨t, (encodeAll_cons_builds _ s hq).trans ht, ?_, ?_⟩
    · rw [hcell, hstep, Nat.mod_add_mod, Nat.add_assoc, Nat.add_comm 1, List.length_cons]
    · rw [hctr, hstep, List.length_cons]
      omega

end Sys2Proof.Machine
end

section
/-! PROOFS. VERIFY: the masked fold it computes, the zero-fold law, and what corruption the verdict shows;
the statements of spec/41_verify.md. -/

namespace Sys2Proof.Machine

/-! ## The laws of the fold (R74) -/

theorem xorBytes_perm {bs bs' : List Byte} (h : bs.Perm bs') : xorBytes bs = xorBytes bs' := by
  induction h with
  | nil => rfl
  | cons b _ ih => rw [xorBytes, xorBytes, ih]
  | swap b c bs => simp only [xorBytes]; ac_rfl
  | trans _ _ ih₁ ih₂ => exact ih₁.trans ih₂

/-- Replacing a byte takes the old one out of the fold and puts the new one in. -/
theorem xorBytes_set {bs : List Byte} {k : Nat} (v : Byte) (hk : k < bs.length) :
    xorBytes (bs.set k v) = xorBytes bs ^^^ bs[k] ^^^ v := by
  induction bs generalizing k with
  | nil => simp at hk
  | cons b bs ih =>
    cases k with
    | zero =>
      calc v ^^^ xorBytes bs = (b ^^^ b) ^^^ (xorBytes bs ^^^ v) := by
            rw [BitVec.xor_self, BitVec.zero_xor, BitVec.xor_comm]
        _ = (b ^^^ xorBytes bs) ^^^ b ^^^ v := by ac_rfl
    | succ k =>
      have hk' : k < bs.length := Nat.lt_of_succ_lt_succ hk
      simp only [List.set_cons_succ, List.getElem_cons_succ, xorBytes, ih hk', BitVec.xor_assoc]

theorem xorBytes_flipped {bs masks : List Byte} (h : masks.length = bs.length) :
    xorBytes (flipped bs masks) = xorBytes bs ^^^ xorBytes masks := by
  induction bs generalizing masks with
  | nil => simp [List.length_eq_zero_iff.mp h, flipped, xorBytes]
  | cons b bs ih =>
    obtain ⟨d, ds, rfl⟩ := List.exists_cons_of_length_eq_add_one h
    have htail : xorBytes (flipped bs ds) = xorBytes bs ^^^ xorBytes ds := ih (Nat.succ.inj h)
    calc (b ^^^ d) ^^^ xorBytes (flipped bs ds) = (b ^^^ d) ^^^ (xorBytes bs ^^^ xorBytes ds) := by
          rw [htail]
      _ = (b ^^^ xorBytes bs) ^^^ (d ^^^ xorBytes ds) := by ac_rfl

/-- R74: bit `k` of the fold is the parity of bit `k` of the bytes. -/
theorem getLsbD_xorBytes (bs : List Byte) (k : Nat) :
    (xorBytes bs).getLsbD k = decide ((bs.countP fun d => d.getLsbD k) % 2 = 1) := by
  induction bs with
  | nil => simp [xorBytes]
  | cons b bs ih =>
    rw [xorBytes, BitVec.getLsbD_xor, ih, List.countP_cons]
    cases b.getLsbD k with
    | false => simp
    | true =>
      rw [Bool.true_xor, if_pos rfl, ← decide_not, decide_eq_decide]
      omega

/-- The fold is zero exactly when every bit position has even parity. -/
theorem xorBytes_eq_zero_iff (bs : List Byte) :
    xorBytes bs = 0 ↔ ∀ k, k < 8 → (bs.countP fun d => d.getLsbD k) % 2 = 0 := by
  have hbit (k : Nat) :
      (xorBytes bs).getLsbD k = (0 : Byte).getLsbD k ↔ (bs.countP fun d => d.getLsbD k) % 2 = 0 := by
    have hz : (0 : Byte).getLsbD k = false := BitVec.getLsbD_zero
    rw [getLsbD_xorBytes, hz, decide_eq_false_iff_not]
    omega
  constructor
  · intro h k _
    rw [← hbit, h]
  · intro h
    exact BitVec.eq_of_getLsbD_eq fun k hk => (hbit k).mpr (h k hk)

/-! ## The masked fold (R71, R72) -/

theorem holdsFrom_setCell {m : Buffer} {bs : List Byte} (a : Nat) (v : Byte) (h : holdsFrom m bs) :
    holdsFrom (setCell m a v) (bs.set a v) := by
  intro j hj
  rw [List.length_set] at hj
  rw [cellAt_setCell, List.getElem?_set]
  by_cases hja : j = a
  · subst hja
    simp [hj]
  · rw [if_neg hja, if_neg (Ne.symm hja), h j hj]

/-- Counting a cell as zero folds as if it held zero, without writing it (R72). -/
theorem xorFoldMasked_eq_xorFold {b : BufName} {m : Buffer} {skip n : Nat}
    (hs : skip < Config.bufSize) : xorFoldMasked b m skip n = xorFold b (setCell m skip 0) n := by
  refine foldCells_congr fun i _ => ?_
  by_cases hi : i = skip
  · rw [if_pos hi, hi, readCell_of_cellAt hs (cellAt_setCell_same m skip 0)]
  · rw [if_neg hi, readCell, readCell, cellAt_setCell_other m 0 hi]

theorem xorFoldMasked_of_holds {b : BufName} {m : Buffer} {bs : List Byte} {skip : Nat}
    (hlen : bs.length ≤ Config.bufSize) (hs : skip < bs.length) (h : holdsFrom m bs) :
    xorFoldMasked b m skip bs.length = .ok (xorBytes (bs.set skip 0)) := by
  have hfold := xorFold_of_holds (b := b) (by rwa [List.length_set]) (holdsFrom_setCell skip 0 h)
  rwa [List.length_set, ← xorFoldMasked_eq_xorFold (by omega)] at hfold

/-! ## The verdict -/

/-- VERIFY on a buffer of at least two known bytes. -/
theorem exec_verify_of_holds {s : State} {bs : List Byte} (h : rxHolds s bs) (h2 : 2 ≤ bs.length) :
    exec .verify s = .next (answer (.verify (verdictOf bs)) s) := by
  obtain ⟨hn, hlen, hh⟩ := h
  have hi : bs.length - 2 < bs.length := by omega
  have hstored := readCell_of_holds (b := .rx) hlen hh hi
  have hfold := xorFoldMasked_of_holds (b := .rx) hlen hi hh
  rw [← List.getD_eq_getElem bs 0 hi, hn] at hstored
  rw [hn] at hfold h2
  rw [verdictOf, hn]
  exact execVerify_of h2 hstored hfold

/-- The zero-fold law (R75) on the bytes: the masked fold differs from the whole one by the stored
byte. -/
theorem verdictOf_eq {bs : List Byte} (h2 : 2 ≤ bs.length) : verdictOf bs = (xorBytes bs == 0) := by
  have hi : bs.length - 2 < bs.length := by omega
  rw [verdictOf, List.getD_eq_getElem bs 0 hi, xorBytes_set 0 hi, Bool.eq_iff_iff, beq_iff_eq,
    beq_iff_eq]
  generalize bs[bs.length - 2] = stored
  calc xorBytes bs ^^^ stored ^^^ 0 = stored ↔ xorBytes bs ^^^ stored = 0 ^^^ stored := by simp
    _ ↔ xorBytes bs = 0 := BitVec.xor_left_inj stored

/-- VERIFY answers `r` exactly when `r` says whether all the bytes fold to zero (R75). -/
theorem exec_verify_eq_iff {s : State} {bs : List Byte} {r : Bool} (h : rxHolds s bs)
    (h2 : 2 ≤ bs.length) :
    exec .verify s = .next (answer (.verify r) s) ↔ (xorBytes bs == 0) = r := by
  rw [exec_verify_of_holds h h2, verdictOf_eq h2]
  constructor
  · intro he
    have hr := congrArg State.responses (Host.Outcome.next.inj he)
    simpa using hr
  · rintro rfl
    rfl

theorem exec_verify_true_iff {s : State} {bs : List Byte} (h : rxHolds s bs) (h2 : 2 ≤ bs.length) :
    exec .verify s = .next (answer (.verify true) s) ↔ xorBytes bs = 0 :=
  (exec_verify_eq_iff h h2).trans beq_iff_eq

/-- Settles O34: the masked fold of known bytes. -/
theorem verifyComparesChecksum : Obligations.VerifyComparesChecksum :=
  fun _ _ => exec_verify_of_holds

/-- Settles O35: the length check, and the verdict on two bytes, where the masked fold is the second. -/
theorem verifyShortBuffers : Obligations.VerifyShortBuffers := by
  refine ⟨fun s => execVerify_runt, fun s x y h => ?_⟩
  have hxy : verdictOf [x, y] = (x == y) := by simp [verdictOf, xorBytes, Bool.beq_comm]
  exact hxy ▸ exec_verify_of_holds h le_rfl

/-! ## The zero-fold law (R75) -/

/-- Written cells hold some bytes. -/
theorem exists_holdsFrom {m : Buffer} {n : Nat} (h : ∀ i, i < n → (cellAt m i).isSome) :
    ∃ bs, bs.length = n ∧ holdsFrom m bs := by
  refine ⟨(List.range n).map fun i => (cellAt m i).getD 0, by simp, fun j hj => ?_⟩
  have hjn : j < n := by simpa using hj
  obtain ⟨v, hv⟩ := Option.isSome_iff_exists.mp (h j hjn)
  simp [hjn, hv]

/-- A VERIFY that answers a verdict has read every cell of the frame, so RXBUF holds RXLEN bytes. -/
theorem exists_rxHolds_of_exec_verify {s t : State} (h2 : 2 ≤ s.rxlen.toNat)
    (h : exec .verify s = .next t) : ∃ bs, rxHolds s bs := by
  obtain ⟨hr, -⟩ | ⟨-, stored, c, hs, hc, -⟩ := execVerify_cases h
  · omega
  have hread (i : Nat) (hi : i < s.rxlen.toNat) : ∃ v, readCell .rx s.rxbuf i = .ok v := by
    by_cases hskip : i = s.rxlen.toNat - 2
    · exact ⟨stored, hskip ▸ hs⟩
    · simpa only [if_neg hskip] using foldCells_eq_ok hc i hi
  obtain ⟨_, hlast⟩ := hread (s.rxlen.toNat - 1) (by omega)
  have hsize := (readCell_eq_ok hlast).1
  obtain ⟨bs, hn, hh⟩ := exists_holdsFrom (m := s.rxbuf) fun i hi => by
    obtain ⟨v, hv⟩ := hread i hi
    simp [(readCell_eq_ok hv).2]
  exact ⟨bs, hn, by omega, hh⟩

/-- Settles O36: VERIFY answered, so RXBUF holds bytes, and on bytes the verdict is the zero fold. -/
theorem verifyIsZeroFold : Obligations.VerifyIsZeroFold := by
  intro s t h2 h
  obtain ⟨bs, hb⟩ := exists_rxHolds_of_exec_verify h2 h
  have ⟨hn, hlen, hh⟩ := hb
  have hlen2 : 2 ≤ bs.length := hn ▸ h2
  obtain rfl : answer (.verify (verdictOf bs)) s = t :=
    Host.Outcome.next.inj ((exec_verify_of_holds hb hlen2).symm.trans h)
  have hfold : xorFold .rx s.rxbuf s.rxlen.toNat = .ok (xorBytes bs) := hn ▸ xorFold_of_holds hlen hh
  rw [hfold, verdictOf_eq hlen2]
  simp

/-! ## What VERIFY detects (R76) -/

/-- Settles O37: the flips fold apart from the bytes, which fold to zero, and the masks fold to zero
exactly when every bit position has an even number of flips. -/
theorem verifyDetectsOddFlips : Obligations.VerifyDetectsOddFlips := by
  intro s s' bs masks hb h2 hm hb' hv
  have hzero : xorBytes bs = 0 := (exec_verify_true_iff hb h2).mp hv
  have h2' : 2 ≤ (flipped bs masks).length := by simpa [flipped, hm] using h2
  calc _ ↔ xorBytes (flipped bs masks) = 0 := exec_verify_true_iff hb' h2'
    _ ↔ xorBytes masks = 0 := by simp [xorBytes_flipped hm, hzero]
    _ ↔ _ := xorBytes_eq_zero_iff masks

/-- Settles O38: after the change the bytes fold to the old byte XOR the new one. -/
theorem verifyDetectsOneChangedCell : Obligations.VerifyDetectsOneChangedCell := by
  intro s s' bs k v hb h2 hk hne hb' hv
  have hzero : xorBytes bs = 0 := (exec_verify_true_iff hb h2).mp hv
  have h2' : 2 ≤ (bs.set k v).length := by rwa [List.length_set]
  have hne' : bs[k] ≠ v := by simpa [List.getElem?_eq_getElem hk] using hne
  have hfold : xorBytes (bs.set k v) ≠ 0 := by simpa [xorBytes_set v hk, hzero] using hne'
  exact (exec_verify_eq_iff hb' h2').mpr (beq_eq_false_iff_ne.mpr hfold)

/-- Two buffers of at least two bytes with the same fold get the same verdict (R75). -/
theorem exec_verify_iff_of_xorBytes_eq {s s' : State} {bs bs' : List Byte} {r : Bool}
    (hb : rxHolds s bs) (h2 : 2 ≤ bs.length) (hb' : rxHolds s' bs') (h2' : 2 ≤ bs'.length)
    (h : xorBytes bs = xorBytes bs') :
    exec .verify s = .next (answer (.verify r) s) ↔
      exec .verify s' = .next (answer (.verify r) s') := by
  rw [exec_verify_eq_iff hb h2, exec_verify_eq_iff hb' h2', h]

/-- Settles O39: the order of the bytes does not affect the fold. -/
theorem verifyMissesReordering : Obligations.VerifyMissesReordering := by
  intro s s' bs bs' r hb h2 hb' hp
  exact (exec_verify_iff_of_xorBytes_eq hb h2 hb' (hp.length_eq ▸ h2) (xorBytes_perm hp)).mp

/-- Settles O40: a run that folds to zero adds nothing to the fold. -/
theorem verifyMissesZeroRuns : Obligations.VerifyMissesZeroRuns := by
  intro s s' xs run ys r hrun h2 hb hb'
  have hfold : xorBytes (xs ++ ys) = xorBytes (xs ++ run ++ ys) := by simp [xorBytes_append, hrun]
  have h2' : 2 ≤ (xs ++ run ++ ys).length := by
    simp only [List.length_append] at h2 ⊢
    omega
  exact exec_verify_iff_of_xorBytes_eq hb h2 hb' h2' hfold

end Sys2Proof.Machine
end

section
/-! PROOFS. DECODE on bytes it reads by position, the frames its check bits single out, and the frames that
reach RXBUF by LOOPBACK and from the wire; the statements of spec/42_decode.md. -/

namespace Sys2Proof.Machine

/-! ## The bytes DECODE reads by position (R82) -/

/-- At least six bytes, named by the position DECODE reads them at: offsets 0 to 3 from the front, N-2 and
N-1 from the end. -/
def positionedBytes (first flag seq flen : Byte) (p : List Byte) (cs last : Byte) : List Byte :=
  [first, flag, seq, flen] ++ p ++ [cs, last]

theorem exists_eq_positionedBytes {bs : List Byte} (h : 6 ≤ bs.length) :
    ∃ first flag seq flen p cs last, bs = positionedBytes first flag seq flen p cs last := by
  match bs, h with
  | first :: flag :: seq :: flen :: rest, h =>
    have htail : (rest.drop (rest.length - 2)).length = 2 := by
      simp only [List.length_cons] at h
      rw [List.length_drop]
      omega
    obtain ⟨cs, last, hcs⟩ := List.length_eq_two.mp htail
    refine ⟨first, flag, seq, flen, rest.take (rest.length - 2), cs, last, ?_⟩
    rw [positionedBytes, List.append_assoc, ← hcs, List.take_append_drop]
    rfl

/-- R40: a frame by position. -/
theorem frameBytes_eq_positionedBytes (flag seq : Byte) (p : List Byte) :
    frameBytes flag seq p = positionedBytes Config.stx flag seq (BitVec.ofNat 8 p.length) p
      (closedChecksum flag seq p) Config.etx := rfl

/-- `dec_bits` on bytes by position (R83). -/
def positionedBits (first flag seq flen : Byte) (p : List Byte) (cs last : Byte) (ovf : Bool) : BitVec 7 :=
  decBits (stxOk first) (etxOk last) (lenOk flen (p.length + 6))
    (csOk (xorBytes (positionedBytes first flag seq flen p cs last))) (flagKnown flag) ovf

theorem flagKnown_iff {flag : Byte} :
    flagKnown flag = true ↔ flag = 0x05 ∨ flag = 0x06 ∨ flag = 0x15 := by
  simp [flagKnown, Config.enq, Config.ack, Config.nak, or_assoc]

theorem frameOk_iff {stx etx len cs ovf : Bool} :
    frameOk stx etx len cs ovf = true ↔
      stx = true ∧ etx = true ∧ len = true ∧ cs = true ∧ ovf = false := by
  simp [frameOk, and_assoc]

section
variable {first flag seq flen cs last : Byte} {p : List Byte}

@[simp] theorem positionedBytes_length :
    (positionedBytes first flag seq flen p cs last).length = p.length + 6 := by
  simp [positionedBytes]

theorem positionedBytes_getElem?_cs :
    (positionedBytes first flag seq flen p cs last)[p.length + 6 - 2]? = some cs := by
  simp [positionedBytes]

theorem positionedBytes_getElem?_last :
    (positionedBytes first flag seq flen p cs last)[p.length + 6 - 1]? = some last := by
  simp [positionedBytes]

/-- DECODE on at least six known bytes: the fields by position and the check bits. -/
theorem exec_decode_of_holds {s : State}
    (h : rxHolds s (positionedBytes first flag seq flen p cs last)) :
    exec .decode s = .next (answer (.decode s.rxlen flag seq flen cs
      (positionedBits first flag seq flen p cs last s.rxovf)) s) := by
  obtain ⟨hn, hlen, hh⟩ := h
  have hfold := xorFold_of_holds (b := .rx) hlen hh
  have hread {i : Nat} {v : Byte}
      (hv : (positionedBytes first flag seq flen p cs last)[i]? = some v) :
      readCell .rx s.rxbuf i = .ok v := by
    obtain ⟨hi, rfl⟩ := List.getElem?_eq_some_iff.mp hv
    exact readCell_of_holds hlen hh hi
  have hcs := hread positionedBytes_getElem?_cs
  have hlast := hread positionedBytes_getElem?_last
  rw [positionedBytes_length] at hn hfold
  rw [hn] at hfold hcs hlast
  rw [positionedBits, hn]
  exact execDecode_of (by omega) (hread rfl) (hread rfl) (hread rfl) (hread rfl) hcs hlast hfold

end

/-- Settles O42: the length check. -/
theorem decodeRunt : Obligations.DecodeRunt := fun _ => execDecode_runt

/-- Settles O41: the bytes are named by position, and each bit is its check. -/
theorem decodeReportsFields : Obligations.DecodeReportsFields := by
  intro s bs h h6
  obtain ⟨first, flag, seq, flen, p, cs, last, rfl⟩ := exists_eq_positionedBytes h6
  refine ⟨flag, seq, flen, cs, _, exec_decode_of_holds h, rfl, rfl, rfl, ?_⟩
  simp only [positionedBytes_length, positionedBytes_getElem?_cs, positionedBytes_getElem?_last,
    positionedBits, decBits_bit, true_and]
  exact ⟨beq_iff_eq.trans Option.some_inj.symm, beq_iff_eq.trans Option.some_inj.symm, beq_iff_eq,
    beq_iff_eq, flagKnown_iff, frameOk_iff⟩

/-! ## The frames `frame_ok` singles out (R84) -/

/-- With STX, ETX and LEN in place the bytes fold to the checksum byte against the closed form of R68. -/
theorem xorBytes_positionedBytes (flag seq cs : Byte) (p : List Byte) :
    xorBytes (positionedBytes Config.stx flag seq (BitVec.ofNat 8 p.length) p cs Config.etx) =
      cs ^^^ closedChecksum flag seq p := by
  simp only [positionedBytes, xorBytes_append, xorBytes, closedChecksum]
  ac_rfl

section
variable {first flag seq flen cs last : Byte} {p : List Byte} (hp : p.length ≤ 250)
include hp

theorem toNat_eq_length_iff : flen.toNat = p.length ↔ flen = BitVec.ofNat 8 p.length := by
  rw [← BitVec.toNat_inj, lenByte_toNat hp]

/-- Bytes by position are a frame exactly when both markers, LEN and the fold are right. -/
theorem exists_eq_frameBytes_iff :
    (∃ f q p', p'.length ≤ 250 ∧ positionedBytes first flag seq flen p cs last = frameBytes f q p') ↔
      first = Config.stx ∧ last = Config.etx ∧ flen.toNat = p.length ∧
        xorBytes (positionedBytes first flag seq flen p cs last) = 0 := by
  rw [toNat_eq_length_iff hp]
  constructor
  · rintro ⟨f, q, p', -, h⟩
    have hfold := (congrArg xorBytes h).trans (xorBytes_frameBytes f q p')
    have hlen : p.length = p'.length := by simpa using congrArg List.length h
    obtain ⟨hbody, htail⟩ := List.append_inj h (by simp [hlen])
    obtain ⟨hfront, -⟩ := List.append_inj hbody rfl
    obtain ⟨hfirst, -, -, hflen⟩ : first = Config.stx ∧ flag = f ∧ seq = q ∧
      flen = BitVec.ofNat 8 p'.length := by simpa using hfront
    obtain ⟨-, hlast⟩ : cs = closedChecksum f q p' ∧ last = Config.etx := by simpa using htail
    exact ⟨hfirst, hlast, hlen ▸ hflen, hfold⟩
  · rintro ⟨rfl, rfl, rfl, hfold⟩
    rw [xorBytes_positionedBytes] at hfold
    obtain rfl : cs = closedChecksum flag seq p := BitVec.xor_eq_zero_iff.mp hfold
    exact ⟨flag, seq, p, hp, rfl⟩

theorem frame_ok_iff {ovf : Bool} :
    (positionedBits first flag seq flen p cs last ovf).getLsbD 6 = true ↔
      ovf = false ∧ ∃ f q p', p'.length ≤ 250 ∧
        positionedBytes first flag seq flen p cs last = frameBytes f q p' := by
  have hlenOk : lenOk flen (p.length + 6) = true ↔ flen.toNat = p.length := beq_iff_eq
  rw [exists_eq_frameBytes_iff hp]
  simp only [positionedBits, decBits_bit, frameOk_iff, hlenOk, stxOk, etxOk, csOk, beq_iff_eq]
  tauto

end

/-- Settles O43: `frame_ok` asks for the markers, LEN and the fold of a frame, and for RXOVF clear. -/
theorem frameOkMeansEncodableFrame : Obligations.FrameOkMeansEncodableFrame := by
  intro s bs h h6
  obtain ⟨first, flag, seq, flen, p, cs, last, rfl⟩ := exists_eq_positionedBytes h6
  have hp : p.length ≤ 250 := by
    obtain ⟨-, hlen, -⟩ := h
    simpa [Config.bufSize] using hlen
  refine ⟨flag, seq, flen, cs, _, exec_decode_of_holds h, ?_, ?_, frame_ok_iff hp⟩
  · simp only [positionedBits, decBits_bit]
  · simp only [positionedBits, decBits_bit, frameOk]

/-- Settles O44: both answer on the same bytes, and both say whether these fold to zero. -/
theorem decodeChecksumBitIsVerdict : Obligations.DecodeChecksumBitIsVerdict := by
  intro s t u r len flag seq flen cs bits hv hr hd hb
  rcases Nat.lt_or_ge s.rxlen.toNat 6 with hlt | h6
  · obtain rfl := Host.Outcome.next.inj ((execDecode_runt hlt).symm.trans hd)
    simp at hb
  obtain ⟨bs, h⟩ := exists_rxHolds_of_exec_verify (by omega) hv
  have hlen6 : 6 ≤ bs.length := by
    obtain ⟨hn, -⟩ := h
    omega
  have hlen2 : 2 ≤ bs.length := by omega
  obtain rfl := Host.Outcome.next.inj ((exec_verify_of_holds h hlen2).symm.trans hv)
  obtain ⟨first, flag', seq', flen', p, cs', last, rfl⟩ := exists_eq_positionedBytes hlen6
  obtain rfl := Host.Outcome.next.inj ((exec_decode_of_holds h).symm.trans hd)
  obtain rfl := Response.verify.inj (List.singleton_inj.mp (List.append_cancel_left hr))
  obtain ⟨-, -, -, -, -, rfl⟩ :=
    Response.decode.inj (List.singleton_inj.mp (List.append_cancel_left hb))
  simp only [positionedBits, decBits_bit, csOk, verdictOf_eq hlen2]

/-! ## A frame that stands in RXBUF -/

/-- All check bits of a frame but `flag_known` and `ovf` are good. -/
theorem positionedBits_frame {flag seq : Byte} {p : List Byte} (ovf : Bool) (hp : p.length ≤ 250) :
    positionedBits Config.stx flag seq (BitVec.ofNat 8 p.length) p (closedChecksum flag seq p) Config.etx
      ovf = decBits true true true true (flagKnown flag) ovf := by
  have hlen : lenOk (BitVec.ofNat 8 p.length) (p.length + 6) = true :=
    beq_iff_eq.mpr (lenByte_toNat hp)
  rw [positionedBits, ← frameBytes_eq_positionedBytes, xorBytes_frameBytes, hlen]
  rfl

section
variable {s : State} {flag seq : Byte} {p : List Byte} (h : rxHolds s (frameBytes flag seq p))
include h

theorem exec_decode_of_frame (hp : p.length ≤ 250) :
    exec .decode s = .next (answer (.decode (BitVec.ofNat 9 (p.length + 6)) flag seq
      (BitVec.ofNat 8 p.length) (closedChecksum flag seq p)
      (decBits true true true true (flagKnown flag) s.rxovf)) s) := by
  have hlen : BitVec.ofNat 9 (p.length + 6) = s.rxlen := by
    obtain ⟨hn, -⟩ := h
    rw [← frameBytes_length flag seq p, hn, BitVec.ofNat_toNat, BitVec.setWidth_eq]
  rw [hlen, ← positionedBits_frame (seq := seq) s.rxovf hp]
  exact exec_decode_of_holds h

theorem exec_verify_of_frame : exec .verify s = .next (answer (.verify true) s) :=
  (exec_verify_true_iff h (by simp)).mpr (xorBytes_frameBytes flag seq p)

theorem cellAt_payload_of_frame {j : Nat} (hj : j < p.length) : cellAt s.rxbuf (4 + j) = p[j]? := by
  obtain ⟨-, -, hh⟩ := h
  rw [hh (4 + j) (by rw [frameBytes_length]; omega), Nat.add_comm]
  exact List.getElem?_append_left (Nat.add_lt_add_right hj 4)

end

/-! ## LOOPBACK (R56) -/

/-- The state after a push with room (R92). -/
def appendedState (b : Byte) (s : State) : State :=
  answer (.rxpush (s.rxlen + 1))
    { s with rxbuf := setCell s.rxbuf s.rxlen.toNat b, rxlen := s.rxlen + 1 }

theorem pushedState_cons {b : Byte} {bs : List Byte} {s : State}
    (h : s.rxlen.toNat + (bs.length + 1) ≤ 256) :
    pushedState (b :: bs) s = pushedState bs (appendedState b s) := by
  have hlt : s.rxlen.toNat < 256 := by omega
  have hrest : (appendedState b s).rxlen.toNat + bs.length ≤ 256 := by
    rw [appendedState, answer_rxlen, len_add_one_toNat hlt]
    omega
  refine Host.Outcome.next.inj ((pushBytes_eq_pushedState h).symm.trans ?_)
  rw [pushBytes, pushByte_room b hlt, andThen_next]
  exact pushBytes_eq_pushedState hrest

/-- One round of LOOPBACK: the byte TXRD gives is pushed. -/
theorem copyCells_succ_of_cellAt {k i : Nat} {b : Byte} {s : State} (hi : i < s.txlen.toNat)
    (hsize : i < Config.bufSize) (hroom : s.rxlen.toNat < 256) (h : cellAt s.txbuf i = some b) :
    copyCells (k + 1) i s = copyCells k (i + 1) (appendedState b (answer (.txrd b) s)) := by
  have htxrd : exec (.txrd i) s = .next (answer (.txrd b) s) :=
    execTxrd_of hi (readCell_of_cellAt hsize h)
  have hpush : exec (.rxpush b) (answer (.txrd b) s) = .next (appendedState b (answer (.txrd b) s)) :=
    pushByte_room b hroom
  rw [copyCells, htxrd, andThen_next, answer_responses, List.getLast?_concat]
  simp only [hpush, andThen_next]

/-- LOOPBACK pushes the bytes of TXBUF; only its responses are not those of the pushes alone, since those
of the TXRDs stand between them. -/
theorem copyCells_of_holds {bs : List Byte} {i : Nat} {s : State} (hi : i + bs.length ≤ s.txlen.toNat)
    (hsize : i + bs.length ≤ Config.bufSize) (hroom : s.rxlen.toNat + bs.length ≤ 256)
    (h : ∀ j, j < bs.length → cellAt s.txbuf (i + j) = bs[j]?) :
    ∃ rs, copyCells bs.length i s = .next { pushedState bs s with responses := rs } := by
  induction bs generalizing i s with
  | nil => exact ⟨s.responses, by simp [copyCells, pushedState, fillCells]⟩
  | cons b bs ih =>
    rw [List.length_cons] at hi hsize hroom h
    have hcell : cellAt s.txbuf i = some b := h 0 (Nat.succ_pos _)
    have hrest : ∀ j, j < bs.length → cellAt s.txbuf (i + 1 + j) = bs[j]? := fun j hj => by
      rw [Nat.add_assoc, Nat.add_comm 1]
      exact h (j + 1) (Nat.succ_lt_succ hj)
    have hlen : (s.rxlen + 1).toNat = s.rxlen.toNat + 1 := len_add_one_toNat (by omega)
    obtain ⟨rs, hrs⟩ := ih (i := i + 1) (s := appendedState b (answer (.txrd b) s))
      (by simp only [appendedState, answer_txlen]; omega) (by omega)
      (by simp only [appendedState, answer_rxlen, hlen]; omega) hrest
    refine ⟨rs, ?_⟩
    rw [List.length_cons, copyCells_succ_of_cellAt (by omega) (by omega) (by omega) hcell, hrs,
      pushedState_cons hroom]
    rfl

/-- LOOPBACK of a whole TXBUF that holds `bs` leaves exactly `bs` in RXBUF and RXOVF clear. -/
theorem loopback_of_holds {bs : List Byte} {s : State} (hlen : bs.length ≤ s.txlen.toNat)
    (hsize : bs.length ≤ 256) (h : holdsFrom s.txbuf bs) :
    ∃ t, loopback bs.length s = .next t ∧ rxHolds t bs ∧ t.rxovf = false := by
  have hroom : (clearedState s).rxlen.toNat + bs.length ≤ 256 := by simpa [clearedState] using hsize
  obtain ⟨rs, hrs⟩ := copyCells_of_holds (i := 0) (s := clearedState s) (by rwa [Nat.zero_add])
    (by rwa [Nat.zero_add]) hroom fun j hj => by
      rw [Nat.zero_add]
      exact h j hj
  exact ⟨_, hrs, rxHolds_pushedState (s := clearedState s) rfl hsize, rfl⟩

/-- Settles O46: LOOPBACK moves the frame ENCODE built, and a frame verifies and decodes to its fields. -/
theorem loopbackRoundTrip : Obligations.LoopbackRoundTrip := by
  intro s flag p hp
  have hlen := frameBytes_length flag s.seqctr p
  obtain ⟨b, hb, hframe, hovf⟩ := loopback_of_holds (bs := frameBytes flag s.seqctr p)
    (s := builtState flag p s.payload { s with payload := p ++ s.payload })
    (by rw [hlen, builtState_txlen_toNat hp]) (by omega)
    (holdsFrom_builtState flag p _ _)
  have hdecode := exec_decode_of_frame hframe hp
  rw [hovf] at hdecode
  refine ⟨_, b, _, _, encodeWith_builds hp, rfl, hlen ▸ hb, exec_verify_of_frame hframe, hdecode, ?_⟩
  simp only [decBits_bit, true_and]
  exact ⟨rfl, fun _ => cellAt_payload_of_frame hframe⟩

/-! ## A frame that arrives (log 3) -/

/-- A wire row is the RXPUSHes of its bytes. -/
theorem runOps_singleton_of_pushedBytes {i : Instr} {bs : List Byte} (hi : pushedBytes i = some bs) :
    runOps [i] = runOps (bs.map .rxpush) := by
  funext s
  rw [runOps_rxpush, runOps, exec_of_pushedBytes s hi]
  cases pushBytes bs s <;> rfl

/-- The wire rows of a frame with the pushes of its payload between them are the RXLOAD of its bytes. -/
theorem runOps_arrival (s : State) (flag seq len cs : Byte) (p : List Byte) :
    runOps ([.rxclr, .frameAny flag seq len] ++ p.map .rxpush ++ [.frameTrailer cs]) s =
      runOps (rxloadOps (headerBytes flag seq len ++ p ++ trailerBytes cs)) s := by
  have happend (xs ys : List Instr) : runOps (xs ++ ys) = fun t => andThen (runOps xs t) (runOps ys) :=
    funext (runOps_append xs ys)
  have hheader : runOps [.frameAny flag seq len] = runOps ((headerBytes flag seq len).map .rxpush) :=
    runOps_singleton_of_pushedBytes rfl
  have htrailer : runOps [.frameTrailer cs] = runOps ((trailerBytes cs).map .rxpush) :=
    runOps_singleton_of_pushedBytes rfl
  calc _ = runOps ([.rxclr] ++ ([.frameAny flag seq len] ++ (p.map .rxpush ++ [.frameTrailer cs]))) s := by
        simp
    _ = runOps ([.rxclr] ++ ((headerBytes flag seq len).map .rxpush ++
          (p.map .rxpush ++ (trailerBytes cs).map .rxpush))) s := by
        simp only [happend, hheader, htrailer]
    _ = _ := by simp [rxloadOps]

/-- Settles O50: a whole frame is loaded into the emptied buffer, with RXOVF clear. -/
theorem arrivedFrameIsReportedGood : Obligations.ArrivedFrameIsReportedGood := by
  intro s flag seq p hp
  have hsize : (frameBytes flag seq p).length ≤ 256 := by
    rw [frameBytes_length]
    omega
  have hframe := rxHolds_pushedState (s := clearedState s) rfl hsize
  refine ⟨_, _, ?_, exec_decode_of_frame hframe hp, ?_⟩
  · rw [runOps_arrival]
    exact runOps_rxloadOps s hsize
  · simp only [decBits_bit]
    rfl

end Sys2Proof.Machine
end

section
/-! PROOFS. The single reads and writes of the two buffers; the statements of
spec/43_buffer_access.md. -/

namespace Sys2Proof.Machine

/-! ## TXRD and RXRD -/

/-- R12, R20: TXLEN does not pass the end of TXBUF. -/
theorem txlen_le_of_blockInv {s : State} (h : BlockInv s) : s.txlen.toNat ≤ 256 :=
  h.txlen_legal.elim (fun h0 => h0.trans_le (Nat.zero_le _)) fun ⟨_, hle⟩ => hle

/-- A cell below a length register, under which every cell is written, has a byte and reads as it. -/
theorem exists_byte_of_written (b : BufName) {m : Buffer} {len i : Nat} (hlen : len ≤ 256)
    (hw : ∀ a, a < len → (cellAt m a).isSome) (hi : i < len) :
    ∃ v, cellAt m i = some v ∧ readCell b m i = .ok v := by
  obtain ⟨v, hv⟩ := Option.isSome_iff_exists.mp (hw i hi)
  exact ⟨v, hv, readCell_of_cellAt (hi.trans_le hlen) hv⟩

/-- Settles O24: below TXLEN the invariants give TXBUF a byte in the cell. -/
theorem txrdReadsCell : Obligations.TxrdReadsCell := by
  refine fun s i h => ⟨fun hi => ?_, execTxrd_range⟩
  obtain ⟨v, hv, hread⟩ := exists_byte_of_written .tx (txlen_le_of_blockInv h) h.tx_written hi
  exact ⟨v, hv, execTxrd_of hi hread⟩

/-- Settles O32: below RXLEN the invariants give RXBUF a byte in the cell. -/
theorem rxrdReadsCell : Obligations.RxrdReadsCell := by
  refine fun s i h => ⟨fun hi => ?_, execRxrd_range⟩
  obtain ⟨v, hv, hread⟩ := exists_byte_of_written .rx h.rxlen_le h.rx_written hi
  exact ⟨v, hv, execRxrd_of hi hread⟩

/-! ## RXCLR and RXPUSH -/

/-- Settles O28: with RXLEN at 0 every index is out of range, and clearing again only answers. -/
theorem rxclrEmptiesBuffer : Obligations.RxclrEmptiesBuffer := fun s =>
  ⟨clearedState s, exec_rxclr s, rfl, fun i => execRxrd_range (Nat.zero_le i),
    exec_rxclr (clearedState s)⟩

/-- Settles O29: a push with room writes the cell at RXLEN and no other. -/
theorem rxpushAppendsByte : Obligations.RxpushAppendsByte := fun s b hroom =>
  ⟨appendedState b s, pushByte_room b hroom, rfl, len_add_one_toNat hroom,
    cellAt_setCell_same s.rxbuf s.rxlen.toNat b, fun _ => cellAt_setCell_other s.rxbuf b⟩

/-- R14, R93: of all operations only RXCLR clears RXOVF. -/
theorem exec_keeps_rxovf {i : Instr} {s t : State} (hovf : s.rxovf = true) (hi : i ≠ .rxclr)
    (h : exec i s = .next t) : t.rxovf = true := by
  by_cases hsame : t.rxovf = s.rxovf
  · exact hsame.trans hovf
  · obtain ⟨hclr, -⟩ | ⟨-, hset, -⟩ := overflowFlagWriters i s t h hsame
    · exact absurd hclr hi
    · exact hset

/-- R80: bit 5 of the check bits DECODE answers is RXOVF. -/
theorem decode_bit5_eq_rxovf {s t : State} {len : Len} {flag seq flen cs : Byte} {bits : BitVec 7}
    (h : exec .decode s = .next t)
    (hrs : t.responses = s.responses ++ [.decode len flag seq flen cs bits]) :
    bits.getLsbD 5 = s.rxovf := by
  obtain ⟨-, rfl⟩ | ⟨-, _, _, _, _, _, _, _, -, -, -, -, -, -, -, rfl⟩ := execDecode_cases h
  · simp at hrs
  · obtain ⟨-, -, -, -, -, rfl⟩ :=
      Response.decode.inj (List.singleton_inj.mp (List.append_cancel_left hrs))
    simp only [decBits_bit]

/-- Settles O30: the full push; who writes RXOVF (O31); and the check bits of DECODE. -/
theorem rxpushOnFullBufferDrops : Obligations.RxpushOnFullBufferDrops :=
  ⟨fun _ => pushByte_full, fun _ _ _ => exec_keeps_rxovf, fun _ _ _ _ _ _ _ _ => decode_bit5_eq_rxovf⟩

end Sys2Proof.Machine
end

section
/-! PROOFS. The payload port: how an ENCODE waits, how a step goes on with it, what is refused at the ports;
the statements of spec/44_port_protocol.md. -/

namespace Sys2Proof.Machine

/-! ## Who takes payload bytes -/

/-- The receive side takes no payload byte. -/
theorem pushBytes_payload {bs : List Byte} {s t : State} (h : pushBytes bs s = .next t) :
    t.payload = s.payload := by
  rw [pushBytes_frame h]

/-- Settles O54, by what an operation can do: only ENCODE reaches the payload port, and it does so after
its length check. -/
theorem onlyEncodeTakesPayload : Obligations.OnlyEncodeTakesPayload := by
  intro i s t h hlong
  obtain ⟨-, r, rfl⟩ | ⟨flag, n, hi, he⟩ | ⟨-, rfl⟩ | ⟨bs, -, hp⟩ := exec_cases h
  · rfl
  · cases (execEncode_tooLong (hlong flag n hi)).symm.trans he
    rfl
  · rfl
  · exact pushBytes_payload hp

/-! ## The wait of an ENCODE -/

@[simp] theorem offered_length (fl : Flight) (s : State) :
    (offered fl s).length = fl.got.length + s.payload.length := List.length_append

/-- ENCODE accepted with part of its payload presented (R104). -/
theorem execEncode_waits {flag : Byte} {n : Nat} {s : State} (hn : n ≤ 250) (hp : s.payload.length < n) :
    execEncode flag n s =
      .next { s with flight := some { flag := flag, n := n, got := s.payload }, payload := [] } := by
  rw [execEncode_gathers hn, gatherPayload_waits (by exact hp), offered_fresh]

/-- Settles O21: with an ENCODE in flight `pl_ready` is high and `op_ready` low. -/
theorem encodeWaitsForPayload : Obligations.EncodeWaitsForPayload := fun _ _ _ hn hp =>
  ⟨_, execEncode_waits hn hp, rfl, rfl, rfl⟩

/-! ## The step with an ENCODE in flight -/

theorem step_of_flight {s : State} {fl : Flight} (hr : s.wasReset = true) (hf : s.flight = some fl) :
    step s = waitFlight fl (freshStep s) := by
  rw [step, runStep, hf]
  exact if_pos hr

theorem step_of_unreset_flight {s : State} {fl : Flight} (hr : s.wasReset = false)
    (hf : s.flight = some fl) : step s = unresetFlight (freshStep s) := by
  rw [step, runStep, hf]
  exact if_neg (by simp [hr])

/-- The wait ends when the bytes are there, whatever HOST does next (log 10). -/
theorem waitFlight_of_enough {fl : Flight} {s : State} (h : fl.n ≤ (offered fl s).length) :
    waitFlight fl s = gatherPayload fl s := if_pos h

section
variable {fl : Flight} {s : State} (h : (offered fl s).length < fl.n)
include h

theorem waitFlight_breakHandshake {rest : List HostEvent} (hh : s.host = .breakHandshake :: rest) :
    waitFlight fl s = .refused .handshakeBroken := by
  rw [waitFlight, if_neg (Nat.not_le.mpr h), hh]
  rfl

/-- A word HOST holds does not end the wait (R102). -/
theorem waitFlight_waits (hr : HostEvent.reset ∉ s.host) (hb : s.host.head? ≠ some .breakHandshake) :
    waitFlight fl s =
      .next { s with flight := some { fl with got := offered fl s }, payload := [] } := by
  rw [waitFlight, if_neg (Nat.not_le.mpr h)]
  split
  · next hh => exact absurd hh hb
  · rw [if_neg (by simpa using hr), gatherPayload_waits h]

end

/-- Settles O23: the step is a wait that goes on. -/
theorem waitingEncodeBlocksPort : Obligations.WaitingEncodeBlocksPort := by
  intro s fl hr hf hlen hreset hbreak
  have hshort : (offered fl (freshStep s)).length < fl.n := by simpa using hlen
  exact (step_of_flight hr hf).trans (waitFlight_waits hshort hreset hbreak)

/-- The step that finds the rest of the payload presented builds the frame. -/
theorem step_of_flight_enough {s : State} {fl : Flight} (hr : s.wasReset = true)
    (hf : s.flight = some fl) (hn : fl.n ≤ 250) (h : fl.n ≤ (offered fl s).length) :
    step s = .next (builtState fl.flag ((offered fl s).take fl.n) ((offered fl s).drop fl.n)
      (freshStep s)) := by
  have henough : fl.n ≤ (offered fl (freshStep s)).length := h
  calc step s = waitFlight fl (freshStep s) := step_of_flight hr hf
    _ = gatherPayload fl (freshStep s) := waitFlight_of_enough henough
    _ = _ := gatherPayload_builds henough hn

/-- Settles O22: in both runs the frame is built from `a ++ b`, and building it writes over the two fields
in which the runs differ, the ENCODE in flight and the payload port. -/
theorem payloadGapsUnobservable : Obligations.PayloadGapsUnobservable := fun _ _ _ _ _ hr hn ha hab =>
  ⟨_, _, execEncode_waits hn ha, step_of_flight_enough hr rfl hn hab, execEncode_builds hn hab⟩

/-! ## What is refused -/

theorem takeEvent_breakHandshake {s : State} {rest : List HostEvent}
    (h : s.host = .breakHandshake :: rest) : takeEvent s = .refused .handshakeBroken := by
  rw [takeEvent, h]

theorem unresetFlight_refuses {s : State} (h : s.host.head? ≠ some .reset) :
    unresetFlight s = .refused .beforeFirstReset := by
  unfold unresetFlight
  split
  · next rest hh => exact absurd (congrArg List.head? hh) h
  · rfl

/-- The step on a presented word accepts it. -/
theorem step_of_present {s : State} {w : RawWord} {rest : List HostEvent} (hf : s.flight = none)
    (hh : s.host = .present w :: rest) : step s = acceptWord w { freshStep s with host := rest } :=
  (step_of_flight_none hf).trans (takeEvent_present hh)

theorem acceptWord_unreset {w : RawWord} {s : State} (hr : s.wasReset = false) :
    acceptWord w s = .refused .beforeFirstReset := if_neg (by simp [hr])

theorem acceptWord_undecodable {w : RawWord} {s : State} {e : DecodeError} (hr : s.wasReset = true)
    (hd : decode w = .error e) : acceptWord w s = .refused (.undecodable e) := by
  rw [acceptWord, if_pos hr, hd]

/-- A presented word that is no row of the table is refused (log 20, log 14). -/
theorem step_of_undecodable {s : State} {w : RawWord} {rest : List HostEvent} {e : DecodeError}
    (hr : s.wasReset = true) (hf : s.flight = none) (hd : decode w = .error e)
    (hh : s.host = .present w :: rest) : step s = .refused (.undecodable e) :=
  (step_of_present hf hh).trans (acceptWord_undecodable hr hd)

theorem decode_headerWithoutStx {b0 : Byte} (b1 b2 b3 : Byte) (h : b0 ≠ Config.stx) :
    decode (.header (packHeader b0 b1 b2 b3)) = .error .headerWithoutStx :=
  (decodeHeader_packHeader b0 b1 b2 b3).trans (if_pos h)

theorem decode_trailerWithoutEtx (c : Byte) {e : Byte} (h : e ≠ Config.etx) :
    decode (.trailer (packTrailer c e)) = .error .trailerWithoutEtx :=
  (decodeTrailer_packTrailer c e).trans (if_pos h)

theorem decode_narrowLenw {lenw : Nat} (w : OpWord lenw) (h : lenw < 9) :
    decode (.opword lenw w) = .error .narrowLenw := if_pos h

/-- Settles O9, clause by clause: a broken handshake with and without an ENCODE in flight, a word and an
ENCODE before the first reset, the three kinds of words that are no row. -/
theorem meaninglessRunsRefused : Obligations.MeaninglessRunsRefused := by
  refine ⟨fun s rest hf hh => ?_, fun s fl rest hr hf hlen hh => ?_, fun s w rest hr hf hh => ?_,
    fun s fl hr hf hh => ?_, fun s rest hr hf => ⟨fun b0 b1 b2 b3 hb hh => ?_, fun c e he hh => ?_,
      fun lenw w hl hh => ?_⟩⟩
  · exact (step_of_flight_none hf).trans (takeEvent_breakHandshake hh)
  · have hshort : (offered fl (freshStep s)).length < fl.n := by simpa using hlen
    exact (step_of_flight hr hf).trans (waitFlight_breakHandshake hshort hh)
  · exact (step_of_present hf hh).trans (acceptWord_unreset hr)
  · exact (step_of_unreset_flight hr hf).trans (unresetFlight_refuses hh)
  · exact step_of_undecodable hr hf (decode_headerWithoutStx b1 b2 b3 hb) hh
  · exact step_of_undecodable hr hf (decode_trailerWithoutEtx c he) hh
  · exact step_of_undecodable hr hf (decode_narrowLenw w hl) hh

end Sys2Proof.Machine
end

section
/-! PROOFS. Operations as a whole: that each of them answers and no step faults, which state each side of
the block touches and depends on, what an error changes and when it is raised; the statements of
spec/60_exceptions.md. -/

namespace Sys2Proof.Machine

/-! ## Every operation gives a next state (R131) -/

/-- An ENCODE that has passed its length check waits or builds its frame; it reads no cell it has not
written. -/
theorem gatherPayload_total {fl : Flight} {s : State} (hn : fl.n ≤ 250) :
    ∃ t, gatherPayload fl s = .next t := by
  rcases Nat.lt_or_ge (offered fl s).length fl.n with hw | hw
  · exact ⟨_, gatherPayload_waits hw⟩
  · exact ⟨_, gatherPayload_builds hw hn⟩

theorem execEncode_total (flag : Byte) (n : Nat) (s : State) : ∃ t, execEncode flag n s = .next t := by
  rcases Nat.lt_or_ge 250 n with hn | hn
  · exact ⟨_, execEncode_tooLong hn⟩
  · rw [execEncode_gathers hn]
    exact gatherPayload_total hn

section
variable {s : State} (h : BlockInv s)
include h

/-- R20: RXBUF holds RXLEN bytes. -/
theorem exists_rxHolds_of_blockInv : ∃ bs, rxHolds s bs := by
  obtain ⟨bs, hlen, hh⟩ := exists_holdsFrom h.rx_written
  exact ⟨bs, hlen, hlen.trans_le h.rxlen_le, hh⟩

theorem execVerify_total : ∃ t, execVerify s = .next t := by
  rcases Nat.lt_or_ge s.rxlen.toNat 2 with h2 | h2
  · exact ⟨_, execVerify_runt h2⟩
  · obtain ⟨bs, hbs⟩ := exists_rxHolds_of_blockInv h
    exact ⟨_, exec_verify_of_holds hbs (h2.trans_eq hbs.1.symm)⟩

theorem execDecode_total : ∃ t, execDecode s = .next t := by
  rcases Nat.lt_or_ge s.rxlen.toNat 6 with h6 | h6
  · exact ⟨_, execDecode_runt h6⟩
  · obtain ⟨bs, hbs⟩ := exists_rxHolds_of_blockInv h
    obtain ⟨_, _, _, _, _, hx, -⟩ := decodeReportsFields s bs hbs (h6.trans_eq hbs.1.symm)
    exact ⟨_, hx⟩

theorem execTxrd_total (i : Nat) : ∃ t, execTxrd i s = .next t := by
  obtain ⟨hin, hout⟩ := txrdReadsCell s i h
  rcases Nat.lt_or_ge i s.txlen.toNat with hi | hi
  · obtain ⟨_, -, hx⟩ := hin hi
    exact ⟨_, hx⟩
  · exact ⟨_, hout hi⟩

theorem execRxrd_total (i : Nat) : ∃ t, execRxrd i s = .next t := by
  obtain ⟨hin, hout⟩ := rxrdReadsCell s i h
  rcases Nat.lt_or_ge i s.rxlen.toNat with hi | hi
  · obtain ⟨_, -, hx⟩ := hin hi
    exact ⟨_, hx⟩
  · exact ⟨_, hout hi⟩

theorem exec_push_total {i : Instr} {bs : List Byte} (hi : pushedBytes i = some bs) :
    ∃ t, exec i s = .next t := by
  rw [exec_of_pushedBytes s hi]
  exact pushBytes_total h.rxlen_le

/-- R131: on a state of the invariants no operation faults and none is refused. -/
theorem exec_total (i : Instr) : ∃ t, exec i s = .next t := by
  cases i with
  | illegal | rxclr => exact ⟨_, rfl⟩
  | encode flag n => exact execEncode_total flag n s
  | txrd i => exact execTxrd_total h i
  | rxrd i => exact execRxrd_total h i
  | verify => exact execVerify_total h
  | decode => exact execDecode_total h
  | rxpush _ | frameEnq _ _ | frameAck _ _ | frameNak _ _ | frameAny _ _ _ | frameTrailer _ =>
    exact exec_push_total h rfl

end

/-! ## Where a step can fault -/

theorem acceptWord_eq_fault {w : RawWord} {s : State} {f : Fault} (h : acceptWord w s = .fault f) :
    ∃ i, exec i s = .fault f := by
  unfold acceptWord at h
  split at h
  · split at h
    · exact ⟨_, h⟩
    · cases h
  · cases h

theorem takeEvent_eq_fault {s : State} {f : Fault} (h : takeEvent s = .fault f) :
    ∃ rest i, exec i { s with host := rest } = .fault f := by
  unfold takeEvent at h
  split at h
  · cases h
  · next w rest _ => exact ⟨rest, acceptWord_eq_fault h⟩
  all_goals cases h

theorem waitFlight_eq_fault {fl : Flight} {s : State} {f : Fault} (h : waitFlight fl s = .fault f) :
    gatherPayload fl s = .fault f := by
  unfold waitFlight at h
  split at h
  · exact h
  · split at h
    · cases h
    · split at h
      · cases h
      · exact h

theorem unresetFlight_ne_fault (s : State) (f : Fault) : unresetFlight s ≠ .fault f := by
  unfold unresetFlight
  split <;> simp

/-- A step that faults does so in the operation it runs or in the ENCODE in flight. -/
theorem step_eq_fault {s : State} {f : Fault} (h : step s = .fault f) :
    (∃ rest i, exec i { freshStep s with host := rest } = .fault f) ∨
    ∃ fl, s.flight = some fl ∧ gatherPayload fl (freshStep s) = .fault f := by
  cases hf : s.flight with
  | none =>
    rw [step_of_flight_none hf] at h
    exact .inl (takeEvent_eq_fault h)
  | some fl =>
    cases hr : s.wasReset with
    | true =>
      rw [step_of_flight hr hf] at h
      exact .inr ⟨fl, rfl, waitFlight_eq_fault h⟩
    | false =>
      rw [step_of_unreset_flight hr hf] at h
      exact absurd h (unresetFlight_ne_fault _ f)

/-- Settles O5: where a step could fault, the invariants, which dropping the last responses and HOST's
event keeps, give a next state. -/
theorem stepNeverFaults : Obligations.StepNeverFaults := by
  rintro s h ⟨f, hf⟩
  obtain ⟨rest, i, hx⟩ | ⟨fl, hfl, hg⟩ := step_eq_fault hf
  · obtain ⟨t, ht⟩ := exec_total (blockInv_host (blockInv_freshStep h) rest) i
    cases ht.symm.trans hx
  · obtain ⟨hn, -⟩ := h.flight_waits fl hfl
    obtain ⟨t, ht⟩ := gatherPayload_total (s := freshStep s) hn
    cases ht.symm.trans hg

/-! ## How many responses an operation gives (R49) -/

theorem opCount_of_only_answers {i : Instr} (hi : i = .illegal ∨ isReader i = true) : opCount i = 1 := by
  cases i with
  | illegal | txrd _ | rxrd _ | verify | decode => rfl
  | _ => simp [isReader] at hi

theorem opCount_of_pushedBytes {i : Instr} {bs : List Byte} (hi : pushedBytes i = some bs) :
    opCount i = bs.length := by
  cases i <;> cases hi <;> rfl

/-- Settles O6: a next state there is, and what an operation can do says how it answers. -/
theorem everyOperationAnswers : Obligations.EveryOperationAnswers := by
  intro i s h hf
  obtain ⟨t, hx⟩ := exec_total h i
  refine ⟨t, ?_⟩
  obtain ⟨hi, r, rfl⟩ | ⟨flag, n, rfl, he⟩ | ⟨rfl, rfl⟩ | ⟨bs, hi, hp⟩ := exec_cases hx
  · exact ⟨[r], hx, rfl, .inl ⟨hf, (opCount_of_only_answers hi).symm⟩⟩
  · obtain ⟨-, rfl⟩ | ⟨hn, hw, rfl⟩ | ⟨-, -, rfl⟩ := execEncode_cases he
    · exact ⟨_, hx, rfl, .inl ⟨hf, rfl⟩⟩
    · exact ⟨[], hx, (List.append_nil _).symm, .inr ⟨rfl, flag, n, rfl, hn, hw, rfl⟩⟩
    · exact ⟨_, hx, rfl, .inl ⟨rfl, rfl⟩⟩
  · exact ⟨_, hx, rfl, .inl ⟨hf, rfl⟩⟩
  · obtain ⟨rs, hrs, hlen⟩ := pushBytes_responses hp
    have hflight : t.flight = s.flight := by rw [pushBytes_frame hp]
    exact ⟨rs, hx, hrs, .inl ⟨hflight.trans hf, hlen.trans (opCount_of_pushedBytes hi).symm⟩⟩

/-! ## The idle block (R130) -/

theorem takeEvent_idle {s : State} (h : s.host = []) : takeEvent s = .next s := by
  rw [takeEvent, h]

/-- Settles O8: with no event to take the step ends where it began, at its fresh state. -/
theorem idleBlockKeepsState : Obligations.IdleBlockKeepsState := fun _ hf hh =>
  (step_of_flight_none hf).trans (takeEvent_idle hh)

/-! ## The state each side touches (R26, R129) -/

theorem sameSender_of_pushBytes {bs : List Byte} {s t : State} (h : pushBytes bs s = .next t) :
    sameSender s t := by
  rw [pushBytes_frame h]
  exact ⟨rfl, rfl, rfl, rfl, rfl⟩

theorem sameReceiver_of_execEncode {flag : Byte} {n : Nat} {s t : State}
    (h : execEncode flag n s = .next t) : sameReceiver s t := by
  obtain ⟨-, rfl⟩ | ⟨-, -, rfl⟩ | ⟨-, -, rfl⟩ := execEncode_cases h <;> exact ⟨rfl, rfl, rfl⟩

/-- No operation touches HOST's events, the mark of the first reset or the counter of free values. -/
theorem exec_keeps_host_wasReset_draws {i : Instr} {s t : State} (h : exec i s = .next t) :
    t.host = s.host ∧ t.wasReset = s.wasReset ∧ t.draws = s.draws := by
  obtain ⟨-, r, rfl⟩ | ⟨flag, n, -, he⟩ | ⟨-, rfl⟩ | ⟨bs, -, hp⟩ := exec_cases h
  · exact ⟨rfl, rfl, rfl⟩
  · obtain ⟨-, rfl⟩ | ⟨-, -, rfl⟩ | ⟨-, -, rfl⟩ := execEncode_cases he <;> exact ⟨rfl, rfl, rfl⟩
  · exact ⟨rfl, rfl, rfl⟩
  · rw [pushBytes_frame hp]
    exact ⟨rfl, rfl, rfl⟩

theorem receiver_keeps_sender {i : Instr} {s t : State} (hi : isReceiver i = true)
    (h : exec i s = .next t) : sameSender s t := by
  obtain ⟨-, r, rfl⟩ | ⟨flag, n, rfl, -⟩ | ⟨-, rfl⟩ | ⟨bs, -, hp⟩ := exec_cases h
  · exact ⟨rfl, rfl, rfl, rfl, rfl⟩
  · cases hi
  · exact ⟨rfl, rfl, rfl, rfl, rfl⟩
  · exact sameSender_of_pushBytes hp

theorem sender_forms {i : Instr} (hi : isSender i = true) :
    (∃ flag n, i = .encode flag n) ∨ ∃ n, i = .txrd n := by
  cases i <;> simp [isSender] at hi ⊢

theorem sender_keeps_receiver {i : Instr} {s t : State} (hi : isSender i = true)
    (h : exec i s = .next t) : sameReceiver s t := by
  obtain ⟨flag, n, rfl⟩ | ⟨n, rfl⟩ := sender_forms hi
  · exact sameReceiver_of_execEncode h
  · obtain ⟨r, rfl⟩ := exec_only_answers (.inr rfl) h
    exact ⟨rfl, rfl, rfl⟩

/-- Settles O52, by what each side's operations and all operations leave alone. -/
theorem sidesTouchDisjointState : Obligations.SidesTouchDisjointState := fun _ _ _ h =>
  ⟨fun hi => receiver_keeps_sender hi h, fun hi => sender_keeps_receiver hi h,
    exec_keeps_host_wasReset_draws h⟩

/-! ## The state each side depends on (R129) -/

/-- The run from `s` to `t` and the run from `a` to `c` add the same responses. -/
def sameAnswers (s t a c : State) : Prop :=
  ∃ rs, t.responses = s.responses ++ rs ∧ c.responses = a.responses ++ rs

theorem sameAnswers_refl (s a : State) : sameAnswers s s a a :=
  ⟨[], (List.append_nil _).symm, (List.append_nil _).symm⟩

theorem sameAnswers.trans {s m t a k c : State} (h : sameAnswers s m a k) (h' : sameAnswers m t k c) :
    sameAnswers s t a c := by
  obtain ⟨rs, hm, hk⟩ := h
  obtain ⟨rs', ht, hc⟩ := h'
  exact ⟨rs ++ rs', by rw [ht, hm, List.append_assoc], by rw [hc, hk, List.append_assoc]⟩

/-- What a sender's operation does depends on the transmit side only. -/
theorem sender_exec_of_sameSender {i : Instr} {s t a : State} (hi : isSender i = true)
    (hsa : sameSender s a) (h : exec i s = .next t) :
    ∃ c, exec i a = .next c ∧ sameSender t c ∧ sameAnswers s t a c := by
  have ⟨hseq, htx, hbuf, hfl, hpl⟩ := hsa
  obtain ⟨flag, n, rfl⟩ | ⟨n, rfl⟩ := sender_forms hi
  · obtain ⟨hn, rfl⟩ | ⟨hn, hw, rfl⟩ | ⟨hn, hp, rfl⟩ := execEncode_cases h
    · exact ⟨_, execEncode_tooLong hn, ⟨hseq, rfl, hbuf, hfl, hpl⟩, _, rfl, rfl⟩
    · exact ⟨_, execEncode_waits hn (hpl ▸ hw), ⟨hseq, htx, hbuf, by rw [hpl], rfl⟩,
        sameAnswers_refl s a⟩
    · refine ⟨_, execEncode_builds hn (hpl ▸ hp), ?_, _, rfl, ?_⟩
      · simp [sameSender, builtState, hseq, hbuf, hpl]
      · simp [builtState, hpl]
  · obtain ⟨hr, rfl⟩ | ⟨hr, v, hv, rfl⟩ := execTxrd_cases h
    · exact ⟨_, execTxrd_range (htx ▸ hr), hsa, _, rfl, rfl⟩
    · exact ⟨_, execTxrd_of (htx ▸ hr) (hbuf ▸ hv), hsa, _, rfl, rfl⟩

/-- What a push does depends on the receive side only. -/
theorem pushByte_of_sameReceiver {b : Byte} {s t a : State} (hsa : sameReceiver s a)
    (h : pushByte b s = .next t) :
    ∃ c, pushByte b a = .next c ∧ sameReceiver t c ∧ sameAnswers s t a c := by
  obtain ⟨hlen, hovf, hbuf⟩ := hsa
  obtain ⟨hl, rfl⟩ | ⟨hl, rfl⟩ := pushByte_cases h
  · exact ⟨_, pushByte_full b (hlen ▸ hl), ⟨hlen, rfl, hbuf⟩, _, rfl, rfl⟩
  · exact ⟨_, pushByte_room b (hlen ▸ hl), by simp [sameReceiver, hlen, hovf, hbuf], _, rfl,
      by simp [hlen]⟩

theorem pushBytes_of_sameReceiver {bs : List Byte} {s t a : State} (hsa : sameReceiver s a)
    (h : pushBytes bs s = .next t) :
    ∃ c, pushBytes bs a = .next c ∧ sameReceiver t c ∧ sameAnswers s t a c := by
  induction bs generalizing s a with
  | nil =>
    cases h
    exact ⟨a, rfl, hsa, sameAnswers_refl t a⟩
  | cons b bs ih =>
    obtain ⟨m, hm, hk⟩ := andThen_eq_next h
    obtain ⟨k, hx, hmk, hans⟩ := pushByte_of_sameReceiver hsa hm
    obtain ⟨c, hc, htc, hans'⟩ := ih hmk hk
    exact ⟨c, by rw [pushBytes, hx, andThen_next, hc], htc, hans.trans hans'⟩

/-- What RXRD, VERIFY or DECODE answers depends on the receive side only. -/
theorem reader_exec_of_sameReceiver {i : Instr} {s t a : State} (hr : isReader i = true)
    (hi : isReceiver i = true) (hsa : sameReceiver s a) (h : exec i s = .next t) :
    ∃ r, t = answer r s ∧ exec i a = .next (answer r a) := by
  obtain ⟨hlen, hovf, hbuf⟩ := hsa
  cases i with
  | rxrd n =>
    obtain ⟨hn, rfl⟩ | ⟨hn, v, hv, rfl⟩ := execRxrd_cases h
    · exact ⟨_, rfl, execRxrd_range (hlen ▸ hn)⟩
    · exact ⟨_, rfl, execRxrd_of (hlen ▸ hn) (hbuf ▸ hv)⟩
  | verify =>
    obtain ⟨hn, rfl⟩ | ⟨hn, stored, c, hs, hc, rfl⟩ := execVerify_cases h
    · exact ⟨_, rfl, execVerify_runt (hlen ▸ hn)⟩
    · rw [hlen] at hn
      rw [hlen, hbuf] at hs hc
      exact ⟨_, rfl, execVerify_of hn hs hc⟩
  | decode =>
    obtain ⟨hn, rfl⟩ | ⟨hn, first, flag, seq, flen, cs, last, fold, h0, h1, h2, h3, h4, h5, h6, rfl⟩ :=
      execDecode_cases h
    · exact ⟨_, rfl, execDecode_runt (hlen ▸ hn)⟩
    · rw [hlen] at hn
      rw [hlen, hovf]
      simp only [hlen, hbuf] at h0 h1 h2 h3 h4 h5 h6
      exact ⟨_, rfl, execDecode_of hn h0 h1 h2 h3 h4 h5 h6⟩
  | _ => simp [isReader, isReceiver] at hr hi

/-- What a receiver's operation does depends on the receive side only. -/
theorem receiver_exec_of_sameReceiver {i : Instr} {s t a : State} (hi : isReceiver i = true)
    (hsa : sameReceiver s a) (h : exec i s = .next t) :
    ∃ c, exec i a = .next c ∧ sameReceiver t c ∧ sameAnswers s t a c := by
  obtain ⟨rfl | hr, -⟩ | ⟨flag, n, rfl, -⟩ | ⟨rfl, rfl⟩ | ⟨bs, hb, hp⟩ := exec_cases h
  · cases hi
  · obtain ⟨r, rfl, ha⟩ := reader_exec_of_sameReceiver hr hi hsa h
    exact ⟨_, ha, hsa, _, rfl, rfl⟩
  · cases hi
  · obtain ⟨-, -, hbuf⟩ := hsa
    exact ⟨_, exec_rxclr a, ⟨rfl, rfl, hbuf⟩, _, rfl, rfl⟩
  · rw [exec_of_pushedBytes a hb]
    exact pushBytes_of_sameReceiver hsa hp

theorem sameSender_of_common {a c d : State} (hc : sameSender a c) (hd : sameSender a d) :
    sameSender c d := by
  obtain ⟨hseq, htxl, htx, hfl, hpl⟩ := hc
  obtain ⟨hseq', htxl', htx', hfl', hpl'⟩ := hd
  exact ⟨hseq.symm.trans hseq', htxl.symm.trans htxl', htx.symm.trans htx', hfl.symm.trans hfl',
    hpl.symm.trans hpl'⟩

theorem sameReceiver_of_common {b c d : State} (hc : sameReceiver b c) (hd : sameReceiver b d) :
    sameReceiver c d := by
  obtain ⟨hlen, hovf, hrx⟩ := hc
  obtain ⟨hlen', hovf', hrx'⟩ := hd
  exact ⟨hlen.symm.trans hlen', hovf.symm.trans hovf', hrx.symm.trans hrx'⟩

/-- Settles O53: each operation keeps the side the other depends on, so it does after the other what it
does from `s`; the two last states have the transmit side `i` leaves and the receive side `j` leaves. -/
theorem senderAndReceiverCommute : Obligations.SenderAndReceiverCommute := by
  intro i j s a b hi hj ha hb
  have hsa : sameReceiver s a := sender_keeps_receiver hi ha
  have hsb : sameSender s b := receiver_keeps_sender hj hb
  obtain ⟨c, hc, hbc, rj, hbrs, hcrs⟩ := receiver_exec_of_sameReceiver hj hsa hb
  obtain ⟨d, hd, had, ri, hars, hdrs⟩ := sender_exec_of_sameSender hi hsb ha
  have hac : sameSender a c := receiver_keeps_sender hj hc
  have hbd : sameReceiver b d := sender_keeps_receiver hi hd
  obtain ⟨hha, hwa, hna⟩ := exec_keeps_host_wasReset_draws ha
  obtain ⟨hhb, hwb, hnb⟩ := exec_keeps_host_wasReset_draws hb
  obtain ⟨hhc, hwc, hnc⟩ := exec_keeps_host_wasReset_draws hc
  obtain ⟨hhd, hwd, hnd⟩ := exec_keeps_host_wasReset_draws hd
  exact ⟨c, d, ri, rj, hc, hd, sameSender_of_common hac had, sameReceiver_of_common hbc hbd,
    by rw [hhc, hha, hhd, hhb], by rw [hwc, hwa, hwd, hwb], by rw [hnc, hna, hnd, hnb],
    hars, hdrs, hbrs, hcrs⟩

/-! ## Errors (R115, R116, R124) -/

/-- The state in which an operation from `s` has raised `e` (R116). -/
def raisedState (e : ErrorKind) (s : State) : State :=
  { s with
    txlen := if e = .payloadTooLarge then 0 else s.txlen
    rxovf := if e = .rxOverflow then true else s.rxovf
    responses := s.responses ++ [.error e] }

/-- The errors there are: which operation raises which from `s`, and under what condition (R116). -/
inductive Raises (s : State) : Instr → ErrorKind → Prop
  | illegal : Raises s .illegal .illegalOp
  | encode {flag : Byte} {n : Nat} (h : 250 < n) : Raises s (.encode flag n) .payloadTooLarge
  | txrd {n : Nat} (h : s.txlen.toNat ≤ n) : Raises s (.txrd n) .range
  | rxrd {n : Nat} (h : s.rxlen.toNat ≤ n) : Raises s (.rxrd n) .range
  | rxpush {b : Byte} (h : s.rxlen.toNat = 256) : Raises s (.rxpush b) .rxOverflow
  | verify (h : s.rxlen.toNat < 2) : Raises s .verify .runt
  | decode (h : s.rxlen.toNat < 6) : Raises s .decode .runt

/-- The one response of an operation that answers an error is that error. -/
theorem eq_error_of_append {rs : List Response} {r : Response} {e : ErrorKind}
    (h : rs ++ [r] = rs ++ [.error e]) : r = .error e :=
  List.singleton_inj.mp (List.append_cancel_left h)

/-- A wire row gives more than one response (log 3). -/
theorem wire_row_not_one_response {i : Instr} {bs : List Byte} {s t : State} {r : Response}
    (hi : pushedBytes i = some bs) (hlen : 2 ≤ bs.length) (h : exec i s = .next t) :
    t.responses ≠ s.responses ++ [r] := by
  intro hr
  obtain ⟨rs, hrs, hn⟩ := pushBytes_responses ((exec_of_pushedBytes s hi).symm.trans h)
  have hone : rs = [r] := List.append_cancel_left (hrs.symm.trans hr)
  simp only [hone, List.length_singleton] at hn
  omega

/-- An operation that answers one error raises it under its condition, and leaves what the raising rule
lists. -/
theorem exec_error {i : Instr} {s t : State} {e : ErrorKind} (h : exec i s = .next t)
    (hr : t.responses = s.responses ++ [.error e]) : Raises s i e ∧ t = raisedState e s := by
  cases i with
  | illegal =>
    cases h
    cases eq_error_of_append hr
    exact ⟨.illegal, rfl⟩
  | encode flag n =>
    obtain ⟨hn, rfl⟩ | ⟨-, -, rfl⟩ | ⟨-, -, rfl⟩ := execEncode_cases h
    · cases eq_error_of_append hr
      exact ⟨.encode hn, rfl⟩
    · simp at hr
    · cases eq_error_of_append hr
  | txrd n =>
    obtain ⟨hn, rfl⟩ | ⟨-, v, -, rfl⟩ := execTxrd_cases h <;> cases eq_error_of_append hr
    exact ⟨.txrd hn, rfl⟩
  | rxclr =>
    cases h
    cases eq_error_of_append hr
  | rxpush b =>
    obtain ⟨hn, rfl⟩ | ⟨-, rfl⟩ := pushByte_cases h <;> cases eq_error_of_append hr
    exact ⟨.rxpush hn, rfl⟩
  | rxrd n =>
    obtain ⟨hn, rfl⟩ | ⟨-, v, -, rfl⟩ := execRxrd_cases h <;> cases eq_error_of_append hr
    exact ⟨.rxrd hn, rfl⟩
  | verify =>
    obtain ⟨hn, rfl⟩ | ⟨-, _, _, -, -, rfl⟩ := execVerify_cases h <;> cases eq_error_of_append hr
    exact ⟨.verify hn, rfl⟩
  | decode =>
    obtain ⟨hn, rfl⟩ | ⟨-, _, _, _, _, _, _, _, -, -, -, -, -, -, -, rfl⟩ := execDecode_cases h <;>
      cases eq_error_of_append hr
    exact ⟨.decode hn, rfl⟩
  | frameEnq _ _ | frameAck _ _ | frameNak _ _ | frameAny _ _ _ | frameTrailer _ =>
    exact absurd hr (wire_row_not_one_response rfl (by simp [headerBytes, trailerBytes]) h)

/-- Settles O55: the state an error leaves. -/
theorem errorsChangeOnlyWhatTheyList : Obligations.ErrorsChangeOnlyWhatTheyList := fun _ _ _ _ h hr =>
  (exec_error h hr).2

/-- Settles O56: the condition an error is raised under. -/
theorem errorsOnlyUnderTheirCondition : Obligations.ErrorsOnlyUnderTheirCondition := by
  intro i s t e h hr
  obtain ⟨hraises, -⟩ := exec_error h hr
  cases hraises with
  | illegal => simp
  | encode hn | txrd hn | rxrd hn | rxpush hn | verify hn | decode hn => simp [hn]

end Sys2Proof.Machine
end

section
/-! PROOFS. Reset between operations and in the middle of one, and two frames that stand in RXBUF with no
RXCLR between; the statements of spec/70_reset_and_hazards.md. -/

namespace Sys2Proof.Machine

/-! ## Two frames end to end (R144) -/

/-- DECODE reads two frames end to end as one: the fields in front are those of the first frame, the
checksum and ETX those of the second, and all bytes between count as payload. -/
theorem exists_frameBytes_append_eq_positionedBytes (f q f' q' : Byte) (p p' : List Byte) :
    ∃ mid : List Byte, mid.length = p.length + 6 + p'.length ∧
      frameBytes f q p ++ frameBytes f' q' p' =
        positionedBytes Config.stx f q (BitVec.ofNat 8 p.length) mid (closedChecksum f' q' p')
          Config.etx := by
  refine ⟨p ++ [closedChecksum f q p, Config.etx, Config.stx, f', q', BitVec.ofNat 8 p'.length] ++ p',
    ?_, ?_⟩
  · simp
    omega
  · simp [frameBytes, positionedBytes]

/-- Each frame folds to zero (R75), and so do both together. -/
theorem xorBytes_two_frames (f q f' q' : Byte) (p p' : List Byte) :
    xorBytes (frameBytes f q p ++ frameBytes f' q' p') = 0 := by
  rw [xorBytes_append, xorBytes_frameBytes, xorBytes_frameBytes]
  exact BitVec.xor_self

/-- `len_ok` is 0 when LEN announces another length than the buffer's (R83). -/
theorem lenOk_ofNat_eq_false {k n : Nat} (hk : k ≤ 250) (h : k ≠ n) :
    lenOk (BitVec.ofNat 8 k) (n + 6) = false := by
  refine beq_eq_false_iff_ne.mpr ?_
  rw [lenByte_toNat hk]
  exact h

/-- Settles O45: the two frames fold to zero and stand between good markers, and LEN announces the first
frame alone. -/
theorem twoFramesVerifyAsOne : Obligations.TwoFramesVerifyAsOne := by
  intro s f q f' q' p p' hp _ h
  have hfold := xorBytes_two_frames f q f' q' p p'
  have hverify := (exec_verify_true_iff h (by simp; omega)).mpr hfold
  obtain ⟨mid, hmid, heq⟩ := exists_frameBytes_append_eq_positionedBytes f q f' q' p p'
  rw [heq] at h hfold
  have hlen : lenOk (BitVec.ofNat 8 p.length) (mid.length + 6) = false :=
    lenOk_ofNat_eq_false hp (by omega)
  refine ⟨hverify, f, q, _, _, _, exec_decode_of_holds h, ?_⟩
  simp only [positionedBits, decBits_bit, hfold, hlen]
  decide

/-! ## Reset (R135, R137) -/

theorem takeEvent_reset {s : State} {rest : List HostEvent} (h : s.host = .reset :: rest) :
    takeEvent s = .next (resetBlock { s with host := rest }) := by
  rw [takeEvent, h]

theorem takeEvent_abandon {s : State} {w : RawWord} {rest : List HostEvent}
    (h : s.host = .abandon w :: rest) : takeEvent s = .next (resetBlock { s with host := rest }) := by
  rw [takeEvent, h]

theorem unresetFlight_reset {s : State} {rest : List HostEvent} (h : s.host = .reset :: rest) :
    unresetFlight s = .next (resetBlock { s with host := rest }) := by
  rw [unresetFlight, h]

/-- The first reset in HOST's list ends a wait (log 10). -/
theorem waitFlight_reset {fl : Flight} {s : State} (h : (offered fl s).length < fl.n)
    (hr : HostEvent.reset ∈ s.host) (hb : s.host.head? ≠ some .breakHandshake) :
    waitFlight fl s = .next (resetBlock { s with host := s.host.erase .reset }) := by
  rw [waitFlight, if_neg (Nat.not_le.mpr h)]
  split
  · next hh => exact absurd hh hb
  · rw [if_pos (by simpa using hr)]

/-- A step in which the first reset in HOST's list ends a wait. -/
theorem step_of_waiting_reset {s : State} {fl : Flight} (hr : s.wasReset = true)
    (hf : s.flight = some fl) (hlen : fl.got.length + s.payload.length < fl.n)
    (hb : s.host.head? ≠ some .breakHandshake) (hm : HostEvent.reset ∈ s.host) :
    step s = .next (resetBlock { freshStep s with host := s.host.erase .reset }) := by
  have hshort : (offered fl (freshStep s)).length < fl.n := by simpa using hlen
  exact (step_of_flight hr hf).trans (waitFlight_reset hshort hm hb)

/-- A leading reset abandons an ENCODE in flight: one that waits, or one in a block that no reset has
reached (log 12). -/
theorem step_of_flight_reset {s : State} {fl : Flight} {rest : List HostEvent} (hf : s.flight = some fl)
    (hlen : s.wasReset = true → fl.got.length + s.payload.length < fl.n)
    (hh : s.host = .reset :: rest) :
    step s = .next (resetBlock { freshStep s with host := rest }) := by
  cases hr : s.wasReset with
  | true =>
    have hstep := step_of_waiting_reset hr hf (hlen hr) (by simp [hh]) (by simp [hh])
    rwa [hh, List.erase_cons_head] at hstep
  | false => exact (step_of_unreset_flight hr hf).trans (unresetFlight_reset hh)

/-- Settles O1: the step is `resetBlock`, after which no index is below TXLEN or RXLEN. -/
theorem resetClearsRegisters : Obligations.ResetClearsRegisters := fun _ _ hf hh =>
  ⟨_, (step_of_flight_none hf).trans (takeEvent_reset hh), rfl, rfl, rfl, rfl, rfl, rfl, rfl,
    fun i => execTxrd_range (Nat.zero_le i), fun i => execRxrd_range (Nat.zero_le i)⟩

/-- Settles O2, clause by clause: a leading reset, a reset behind held words, an abandoned operation; each
step is `resetBlock`. -/
theorem resetAbandonsOperation : Obligations.ResetAbandonsOperation := by
  refine ⟨fun s fl rest hf hlen hh => ?_, fun s fl hr hf hlen hb hm => ?_, fun s w rest hf hh => ?_⟩
  · exact ⟨_, step_of_flight_reset hf hlen hh, rfl, rfl, rfl, rfl, rfl, rfl, rfl⟩
  · exact ⟨_, step_of_waiting_reset hr hf hlen hb hm, rfl, rfl, rfl, rfl, rfl, rfl, rfl⟩
  · exact ⟨_, (step_of_flight_none hf).trans (takeEvent_abandon hh), rfl, rfl, rfl, rfl, rfl, rfl, rfl⟩

end Sys2Proof.Machine
end
